-- ==== Sys2Proof/Config.lean ====
section
/-! DEFINITION. What one implementation of the block fixes: the open capacity parameters of the spec (R6, R57, D19)
and the number of instances (R6, R199, D31). The spec leaves no result of a command open, so there is no free value. -/

namespace Sys2Proof

/-- The capacities of the two byte stores, in bytes; `none` is unbounded. They are parameters of the model
(R57), so a state carries them and every statement about all states holds for every capacity. -/
structure Config where
  /-- `P_ENC_CAP`: the largest encoder accumulator (R6). -/
  encCap : Option Nat
  /-- `P_DEC_CAP`: the largest decoder buffer (R6). -/
  decCap : Option Nat
  deriving DecidableEq, Repr

/-- The spec's default: both stores unbounded (R6, R57). -/
def Config.unbounded : Config := { encCap := none, decCap := none }

/-- The default of `P_INSTANCES`, the number of independent instances (R6, D31). -/
def Config.defaultInstances : Nat := 1

end Sys2Proof
end

