-- ==== Sys2Proof/Word.lean ====
section
/-! DEFINITION. The sizes of the block's data: bytes, registers, the command word, the STATUS code (R6, R7, R33) and the
scalar widths (R6). -/

namespace Sys2Proof

/-- A byte, 0..255 (R7). -/
abbrev Byte := BitVec 8

/-- A register, the 16-bit exchange unit, 0..65535 (R7, R21). -/
abbrev Register := BitVec 16

/-- A command word (R65). -/
abbrev CommandWord := BitVec 32

/-- A STATUS code (R33). -/
abbrev StatusCode := BitVec 3

/-- The scalar widths W of R6. -/
inductive Width where
  | w8
  | w16
  | w32
  | w64
  deriving DecidableEq, Repr

/-- W in bits. -/
def Width.bits : Width → Nat
  | .w8 => 8
  | .w16 => 16
  | .w32 => 32
  | .w64 => 64

/-- W/8, the bytes of a W-bit scalar (R53). -/
def Width.bytes : Width → Nat
  | .w8 => 1
  | .w16 => 2
  | .w32 => 4
  | .w64 => 8

end Sys2Proof
end

