-- ==== Sys2Proof/Syntax.lean ====
section
/-! DEFINITION. The commands: one constructor for every row of spec/opcode_table.json, with the fields of the command
word that the row decodes (R72). Operand data is not in the command: it is the DIN payload (R65, R78). -/

namespace Sys2Proof

/-- A byte order or a word order (R23). -/
inductive Endian where
  | native
  | big
  | little
  deriving DecidableEq, Repr

/-- The 47 commands of R73. `bo` and `wo` are the decoded order fields, `count` is COUNT as a number (R71). -/
inductive Instr where
  /-- 0x01 XFWD8 (R91) -/
  | xfwd8 (bo wo : Endian)
  /-- 0x02 XFWD16 (R92) -/
  | xfwd16 (bo wo : Endian)
  /-- 0x03 XFWD32 (R93) -/
  | xfwd32 (bo wo : Endian)
  /-- 0x04 XFWD64 (R94) -/
  | xfwd64 (bo wo : Endian)
  /-- 0x05 XINV8 (R95) -/
  | xinv8 (bo wo : Endian)
  /-- 0x06 XINV16 (R96) -/
  | xinv16 (bo wo : Endian)
  /-- 0x07 XINV32 (R97) -/
  | xinv32 (bo wo : Endian)
  /-- 0x08 XINV64 (R98) -/
  | xinv64 (bo wo : Endian)
  /-- 0x09 PACK (R134) -/
  | pack
  /-- 0x0A UNPACK (R135) -/
  | unpack
  /-- 0x10 B_INIT (R105) -/
  | bInit (bo wo : Endian) (repack : Bool)
  /-- 0x11 B_ADD_U8 (R106) -/
  | bAddU8
  /-- 0x12 B_ADD_I8 (R107) -/
  | bAddI8
  /-- 0x13 B_ADD_U16 (R108) -/
  | bAddU16
  /-- 0x14 B_ADD_I16 (R109) -/
  | bAddI16
  /-- 0x15 B_ADD_F16 (R110) -/
  | bAddF16
  /-- 0x16 B_ADD_U32 (R111) -/
  | bAddU32
  /-- 0x17 B_ADD_I32 (R112) -/
  | bAddI32
  /-- 0x18 B_ADD_F32 (R113) -/
  | bAddF32
  /-- 0x19 B_ADD_U64 (R114) -/
  | bAddU64
  /-- 0x1A B_ADD_I64 (R115) -/
  | bAddI64
  /-- 0x1B B_ADD_F64 (R116) -/
  | bAddF64
  /-- 0x1C B_ADD_STR (R117) -/
  | bAddStr
  /-- 0x1D B_ADD_BITS (R118) -/
  | bAddBits
  /-- 0x20 B_ENCODE (R120) -/
  | bEncode
  /-- 0x21 B_BUILD (R122) -/
  | bBuild
  /-- 0x22 B_TO_REGS (R124) -/
  | bToRegs
  /-- 0x23 B_TO_COILS (R126) -/
  | bToCoils
  /-- 0x24 B_RESET (R127) -/
  | bReset
  /-- 0x30 D_INIT_RAW (R141) -/
  | dInitRaw (bo wo : Endian)
  /-- 0x31 D_FROM_REGS (R143) -/
  | dFromRegs (bo wo : Endian)
  /-- 0x32 D_FROM_COILS (R145). The WO field is ignored and may hold any of its four codes (R68, R75). -/
  | dFromCoils (bo : Endian) (ignoredWo : BitVec 2)
  /-- 0x33 D_U8 (R150) -/
  | dU8
  /-- 0x34 D_I8 (R151) -/
  | dI8
  /-- 0x35 D_U16 (R152) -/
  | dU16
  /-- 0x36 D_I16 (R153) -/
  | dI16
  /-- 0x37 D_F16 (R154) -/
  | dF16
  /-- 0x38 D_U32 (R155) -/
  | dU32
  /-- 0x39 D_I32 (R156) -/
  | dI32
  /-- 0x3A D_F32 (R157) -/
  | dF32
  /-- 0x3B D_U64 (R158) -/
  | dU64
  /-- 0x3C D_I64 (R159) -/
  | dI64
  /-- 0x3D D_F64 (R160) -/
  | dF64
  /-- 0x3E D_BITS (R161) -/
  | dBits (count : Nat)
  /-- 0x3F D_STR (R162) -/
  | dStr (count : Nat)
  /-- 0x40 D_SKIP (R163) -/
  | dSkip (count : Nat)
  /-- 0x41 D_RESET (R164) -/
  | dReset
  deriving DecidableEq, Repr

end Sys2Proof
end

