-- ==== Sys2Proof/WellFormed.lean ====
section
/-! DEFINITION. Which terms of `Instr` a command word can hold. The order fields are well formed by their type: the
illegal code 3 has no `Endian` (R67, R68). What is left to check is COUNT's 16-bit range (R71). -/

namespace Sys2Proof

/-- COUNT's range, 0..65535 (R71). -/
def countFits (count : Nat) : Bool := decide (count < 2 ^ 16)

/-- The command can be written as a command word. -/
def Instr.wf : Instr → Bool
  | .dBits count => countFits count
  | .dStr count => countFits count
  | .dSkip count => countFits count
  | .xfwd8 _ _ | .xfwd16 _ _ | .xfwd32 _ _ | .xfwd64 _ _ => true
  | .xinv8 _ _ | .xinv16 _ _ | .xinv32 _ _ | .xinv64 _ _ => true
  | .pack | .unpack => true
  | .bInit _ _ _ => true
  | .bAddU8 | .bAddI8 | .bAddU16 | .bAddI16 | .bAddF16 => true
  | .bAddU32 | .bAddI32 | .bAddF32 | .bAddU64 | .bAddI64 | .bAddF64 => true
  | .bAddStr | .bAddBits => true
  | .bEncode | .bBuild | .bToRegs | .bToCoils | .bReset => true
  | .dInitRaw _ _ | .dFromRegs _ _ | .dFromCoils _ _ => true
  | .dU8 | .dI8 | .dU16 | .dI16 | .dF16 => true
  | .dU32 | .dI32 | .dF32 | .dU64 | .dI64 | .dF64 => true
  | .dReset => true

end Sys2Proof
end

