-- ==== Sys2Proof/Decode.lean ====
section
/-! DEFINITION. Command words: their fields (R65), which fields each group of commands uses (R72), the opcode map (R73),
the decoder, total on all 2^32 words (R77), and the encoder (R83). -/

namespace Sys2Proof

/-- The fields of a command word (R65). -/
structure CommandFields where
  /-- bits 31:24 -/
  opc : BitVec 8
  /-- bits 23:22 -/
  bo : BitVec 2
  /-- bits 21:20 -/
  wo : BitVec 2
  /-- bit 19 -/
  repack : BitVec 1
  /-- bits 18:16 -/
  rsv : BitVec 3
  /-- bits 15:0 -/
  count : BitVec 16
  deriving DecidableEq, Repr

/-- Cuts a command word into its fields (R65, R66 to R71). -/
def commandFields (cmd : CommandWord) : CommandFields where
  opc := cmd.extractLsb' 24 8
  bo := cmd.extractLsb' 22 2
  wo := cmd.extractLsb' 20 2
  repack := cmd.extractLsb' 19 1
  rsv := cmd.extractLsb' 16 3
  count := cmd.extractLsb' 0 16

/-- How a group of commands treats a field (R72): "use", "0" or "ign". -/
inductive FieldUse where
  | used
  | mustBeZero
  | ignored
  deriving DecidableEq, Repr

/-- The four fields of a row of R72. -/
structure GroupUse where
  bo : FieldUse
  wo : FieldUse
  repack : FieldUse
  count : FieldUse
  deriving DecidableEq, Repr

/-- The groups of R72. -/
inductive CommandGroup where
  | transform
  | codec
  | builderConstruct
  | builderOperation
  | decoderConstruct
  | decoderConstructCoils
  | decoderPlain
  | decoderCounted
  deriving DecidableEq, Repr

/-- The table of R72. -/
def CommandGroup.use : CommandGroup → GroupUse
  | .transform => ⟨.used, .used, .mustBeZero, .mustBeZero⟩
  | .codec => ⟨.mustBeZero, .mustBeZero, .mustBeZero, .mustBeZero⟩
  | .builderConstruct => ⟨.used, .used, .used, .mustBeZero⟩
  | .builderOperation => ⟨.mustBeZero, .mustBeZero, .mustBeZero, .mustBeZero⟩
  | .decoderConstruct => ⟨.used, .used, .mustBeZero, .mustBeZero⟩
  | .decoderConstructCoils => ⟨.used, .ignored, .mustBeZero, .mustBeZero⟩
  | .decoderPlain => ⟨.mustBeZero, .mustBeZero, .mustBeZero, .mustBeZero⟩
  | .decoderCounted => ⟨.mustBeZero, .mustBeZero, .mustBeZero, .used⟩

/-- A row of the opcode map (R73): its opcode, its mnemonic, its group, and the command that the decoded orders and the
remaining fields give. -/
structure OpcodeRow where
  opc : BitVec 8
  mnemonic : String
  group : CommandGroup
  build : Endian → Endian → CommandFields → Instr

/-- R73, opcodes 0x01 to 0x0A: the transform and the codec. -/
def transformRows : List OpcodeRow := [
  ⟨0x01, "XFWD8", .transform, fun bo wo _ => .xfwd8 bo wo⟩,
  ⟨0x02, "XFWD16", .transform, fun bo wo _ => .xfwd16 bo wo⟩,
  ⟨0x03, "XFWD32", .transform, fun bo wo _ => .xfwd32 bo wo⟩,
  ⟨0x04, "XFWD64", .transform, fun bo wo _ => .xfwd64 bo wo⟩,
  ⟨0x05, "XINV8", .transform, fun bo wo _ => .xinv8 bo wo⟩,
  ⟨0x06, "XINV16", .transform, fun bo wo _ => .xinv16 bo wo⟩,
  ⟨0x07, "XINV32", .transform, fun bo wo _ => .xinv32 bo wo⟩,
  ⟨0x08, "XINV64", .transform, fun bo wo _ => .xinv64 bo wo⟩,
  ⟨0x09, "PACK", .codec, fun _ _ _ => .pack⟩,
  ⟨0x0A, "UNPACK", .codec, fun _ _ _ => .unpack⟩]

/-- R73, opcodes 0x10 to 0x24: the encoder channel. -/
def builderRows : List OpcodeRow := [
  ⟨0x10, "B_INIT", .builderConstruct, fun bo wo f => .bInit bo wo (f.repack == 1)⟩,
  ⟨0x11, "B_ADD_U8", .builderOperation, fun _ _ _ => .bAddU8⟩,
  ⟨0x12, "B_ADD_I8", .builderOperation, fun _ _ _ => .bAddI8⟩,
  ⟨0x13, "B_ADD_U16", .builderOperation, fun _ _ _ => .bAddU16⟩,
  ⟨0x14, "B_ADD_I16", .builderOperation, fun _ _ _ => .bAddI16⟩,
  ⟨0x15, "B_ADD_F16", .builderOperation, fun _ _ _ => .bAddF16⟩,
  ⟨0x16, "B_ADD_U32", .builderOperation, fun _ _ _ => .bAddU32⟩,
  ⟨0x17, "B_ADD_I32", .builderOperation, fun _ _ _ => .bAddI32⟩,
  ⟨0x18, "B_ADD_F32", .builderOperation, fun _ _ _ => .bAddF32⟩,
  ⟨0x19, "B_ADD_U64", .builderOperation, fun _ _ _ => .bAddU64⟩,
  ⟨0x1A, "B_ADD_I64", .builderOperation, fun _ _ _ => .bAddI64⟩,
  ⟨0x1B, "B_ADD_F64", .builderOperation, fun _ _ _ => .bAddF64⟩,
  ⟨0x1C, "B_ADD_STR", .builderOperation, fun _ _ _ => .bAddStr⟩,
  ⟨0x1D, "B_ADD_BITS", .builderOperation, fun _ _ _ => .bAddBits⟩,
  ⟨0x20, "B_ENCODE", .builderOperation, fun _ _ _ => .bEncode⟩,
  ⟨0x21, "B_BUILD", .builderOperation, fun _ _ _ => .bBuild⟩,
  ⟨0x22, "B_TO_REGS", .builderOperation, fun _ _ _ => .bToRegs⟩,
  ⟨0x23, "B_TO_COILS", .builderOperation, fun _ _ _ => .bToCoils⟩,
  ⟨0x24, "B_RESET", .builderOperation, fun _ _ _ => .bReset⟩]

/-- R73, opcodes 0x30 to 0x41: the decoder channel. -/
def decoderRows : List OpcodeRow := [
  ⟨0x30, "D_INIT_RAW", .decoderConstruct, fun bo wo _ => .dInitRaw bo wo⟩,
  ⟨0x31, "D_FROM_REGS", .decoderConstruct, fun bo wo _ => .dFromRegs bo wo⟩,
  ⟨0x32, "D_FROM_COILS", .decoderConstructCoils, fun bo _ f => .dFromCoils bo f.wo⟩,
  ⟨0x33, "D_U8", .decoderPlain, fun _ _ _ => .dU8⟩,
  ⟨0x34, "D_I8", .decoderPlain, fun _ _ _ => .dI8⟩,
  ⟨0x35, "D_U16", .decoderPlain, fun _ _ _ => .dU16⟩,
  ⟨0x36, "D_I16", .decoderPlain, fun _ _ _ => .dI16⟩,
  ⟨0x37, "D_F16", .decoderPlain, fun _ _ _ => .dF16⟩,
  ⟨0x38, "D_U32", .decoderPlain, fun _ _ _ => .dU32⟩,
  ⟨0x39, "D_I32", .decoderPlain, fun _ _ _ => .dI32⟩,
  ⟨0x3A, "D_F32", .decoderPlain, fun _ _ _ => .dF32⟩,
  ⟨0x3B, "D_U64", .decoderPlain, fun _ _ _ => .dU64⟩,
  ⟨0x3C, "D_I64", .decoderPlain, fun _ _ _ => .dI64⟩,
  ⟨0x3D, "D_F64", .decoderPlain, fun _ _ _ => .dF64⟩,
  ⟨0x3E, "D_BITS", .decoderCounted, fun _ _ f => .dBits f.count.toNat⟩,
  ⟨0x3F, "D_STR", .decoderCounted, fun _ _ f => .dStr f.count.toNat⟩,
  ⟨0x40, "D_SKIP", .decoderCounted, fun _ _ f => .dSkip f.count.toNat⟩,
  ⟨0x41, "D_RESET", .decoderPlain, fun _ _ _ => .dReset⟩]

/-- The opcode map (R73). -/
def opcodeRows : List OpcodeRow := transformRows ++ builderRows ++ decoderRows

/-- The order of a 2-bit code: 0 NATIVE, 1 BIG, 2 LITTLE, and 3 is no order (R67, R68). -/
def Endian.ofCode (code : BitVec 2) : Option Endian :=
  if code = 0 then some .native
  else if code = 1 then some .big
  else if code = 2 then some .little
  else none

/-- The 2-bit code of an order (R67, R68). -/
def Endian.code : Endian → BitVec 2
  | .native => 0
  | .big => 1
  | .little => 2

/-- Why a command word is illegal (R74, R75). Every reason gives the same response, IllegalCommand (R183). -/
inductive IllegalWord where
  /-- OPC is outside the map (R74). -/
  | opcode
  /-- RSV is not 0 (R70, R75). -/
  | reserved
  /-- A field the command must leave at 0 is not 0 (R72, R75). -/
  | unusedField
  /-- A used order field holds code 3 (R67, R68, R75). -/
  | orderCode
  deriving DecidableEq, Repr

/-- A field of the word breaks the "0" entry of its group (R72, R77). -/
def fieldNotZero (use : FieldUse) (isZero : Bool) : Bool :=
  match use with
  | .mustBeZero => !isZero
  | .used => false
  | .ignored => false

/-- Some field that the group must leave at 0 is not 0 (R75, R77). -/
def unusedFieldSet (u : GroupUse) (f : CommandFields) : Bool :=
  fieldNotZero u.bo (f.bo == 0) || fieldNotZero u.wo (f.wo == 0)
    || fieldNotZero u.repack (f.repack == 0) || fieldNotZero u.count (f.count == 0)

/-- The order a group reads from a field: none for code 3 in a used field (R75, R77). A field that is not used gives
NATIVE, which the row's command then does not hold. -/
def orderField (use : FieldUse) (code : BitVec 2) : Option Endian :=
  match use with
  | .used => Endian.ofCode code
  | .mustBeZero => some .native
  | .ignored => some .native

/-- The row of an opcode (R66, R73). -/
def opcodeRow (opc : BitVec 8) : Option OpcodeRow := opcodeRows.find? fun r => r.opc == opc

/-- R77 on the fields of a word and the row of its opcode. -/
def decodeRow (r : OpcodeRow) (f : CommandFields) : Except IllegalWord Instr :=
  if f.rsv = 0 then
    if unusedFieldSet r.group.use f then .error .unusedField
    else
      match orderField r.group.use.bo f.bo, orderField r.group.use.wo f.wo with
      | some bo, some wo => .ok (r.build bo wo f)
      | _, _ => .error .orderCode
  else .error .reserved

/-- `decodeCmd` of R77: the command of a word, or why the word is illegal. -/
def decodeCmd (cmd : CommandWord) : Except IllegalWord Instr :=
  match opcodeRow (commandFields cmd).opc with
  | none => .error .opcode
  | some r => decodeRow r (commandFields cmd)

/-- The encoding formula of R83: `OPC·2^24 + BO·2^22 + WO·2^20 + REPACK·2^19 + COUNT`. -/
def commandWord (opc : BitVec 8) (bo wo : BitVec 2) (repack : BitVec 1) (count : Nat) : CommandWord :=
  BitVec.ofNat 32
    (opc.toNat * 2 ^ 24 + bo.toNat * 2 ^ 22 + wo.toNat * 2 ^ 20 + repack.toNat * 2 ^ 19 + count)

/-- The command word of a command (R73, R83). -/
def encode : Instr → CommandWord
  | .xfwd8 bo wo => commandWord 0x01 bo.code wo.code 0 0
  | .xfwd16 bo wo => commandWord 0x02 bo.code wo.code 0 0
  | .xfwd32 bo wo => commandWord 0x03 bo.code wo.code 0 0
  | .xfwd64 bo wo => commandWord 0x04 bo.code wo.code 0 0
  | .xinv8 bo wo => commandWord 0x05 bo.code wo.code 0 0
  | .xinv16 bo wo => commandWord 0x06 bo.code wo.code 0 0
  | .xinv32 bo wo => commandWord 0x07 bo.code wo.code 0 0
  | .xinv64 bo wo => commandWord 0x08 bo.code wo.code 0 0
  | .pack => commandWord 0x09 0 0 0 0
  | .unpack => commandWord 0x0A 0 0 0 0
  | .bInit bo wo repack => commandWord 0x10 bo.code wo.code (BitVec.ofBool repack) 0
  | .bAddU8 => commandWord 0x11 0 0 0 0
  | .bAddI8 => commandWord 0x12 0 0 0 0
  | .bAddU16 => commandWord 0x13 0 0 0 0
  | .bAddI16 => commandWord 0x14 0 0 0 0
  | .bAddF16 => commandWord 0x15 0 0 0 0
  | .bAddU32 => commandWord 0x16 0 0 0 0
  | .bAddI32 => commandWord 0x17 0 0 0 0
  | .bAddF32 => commandWord 0x18 0 0 0 0
  | .bAddU64 => commandWord 0x19 0 0 0 0
  | .bAddI64 => commandWord 0x1A 0 0 0 0
  | .bAddF64 => commandWord 0x1B 0 0 0 0
  | .bAddStr => commandWord 0x1C 0 0 0 0
  | .bAddBits => commandWord 0x1D 0 0 0 0
  | .bEncode => commandWord 0x20 0 0 0 0
  | .bBuild => commandWord 0x21 0 0 0 0
  | .bToRegs => commandWord 0x22 0 0 0 0
  | .bToCoils => commandWord 0x23 0 0 0 0
  | .bReset => commandWord 0x24 0 0 0 0
  | .dInitRaw bo wo => commandWord 0x30 bo.code wo.code 0 0
  | .dFromRegs bo wo => commandWord 0x31 bo.code wo.code 0 0
  | .dFromCoils bo ignoredWo => commandWord 0x32 bo.code ignoredWo 0 0
  | .dU8 => commandWord 0x33 0 0 0 0
  | .dI8 => commandWord 0x34 0 0 0 0
  | .dU16 => commandWord 0x35 0 0 0 0
  | .dI16 => commandWord 0x36 0 0 0 0
  | .dF16 => commandWord 0x37 0 0 0 0
  | .dU32 => commandWord 0x38 0 0 0 0
  | .dI32 => commandWord 0x39 0 0 0 0
  | .dF32 => commandWord 0x3A 0 0 0 0
  | .dU64 => commandWord 0x3B 0 0 0 0
  | .dI64 => commandWord 0x3C 0 0 0 0
  | .dF64 => commandWord 0x3D 0 0 0 0
  | .dBits count => commandWord 0x3E 0 0 0 count
  | .dStr count => commandWord 0x3F 0 0 0 count
  | .dSkip count => commandWord 0x40 0 0 0 count
  | .dReset => commandWord 0x41 0 0 0 0

/-- The command that the decoder reads from a table word of `nbits` bits, numbered as the table numbers them (R65: bit 0 is
the least significant bit of the command word). A command is one 32-bit word (R82), so the bits above `nbits` are 0. -/
def decodeTableWord (nbits w : Nat) : Option Instr :=
  match decodeCmd (BitVec.ofNat 32 (w % 2 ^ nbits)) with
  | .ok i => some i
  | .error _ => none

end Sys2Proof
end

