-- ==== Sys2Proof/Machine/State.lean ====
section
/-! DEFINITION. Everything the spec gives one instance of the block (R25, R27, R33 to R35, R37, R41), as plain data, and its
value after reset (R40, R210). -/

namespace Sys2Proof.Machine

/-- A payload on DIN or DOUT, tagged with its kind (R42). -/
inductive Payload where
  /-- NONE: nothing. -/
  | none
  /-- SCALAR(W, p): a W-bit pattern. -/
  | scalar (w : Width) (p : BitVec w.bits)
  /-- BYTES(s). -/
  | bytes (s : List Byte)
  /-- BITS(b): booleans or coils. -/
  | bits (b : List Bool)
  /-- REGS(r). -/
  | regs (r : List Register)
  /-- PAIRS(q): the output of `build()`. -/
  | pairs (q : List (Byte × Byte))
  /-- MALFORMED: not a proper ordered sequence. -/
  | malformed
  deriving DecidableEq, Repr

/-- The errors a command can raise (R180). -/
inductive CommandError where
  | invalidInput
  | truncatedBuffer
  | illegalCommand
  | notConstructed
  | sessionAborted
  | capacityExceeded
  deriving DecidableEq, Repr

/-- A transaction: a command word and its operand payload (R41). -/
structure Transaction where
  cmd : CommandWord
  din : Payload
  deriving DecidableEq, Repr

/-- The values of `enc_state` (R25). -/
inductive EncoderState where
  | none
  | ready
  deriving DecidableEq, Repr

/-- The values of `dec_state` (R27). -/
inductive DecoderState where
  | none
  | ready
  | aborted
  deriving DecidableEq, Repr

/-- The encoder channel, the Payload Builder (R25). -/
structure Encoder where
  /-- `enc_state` -/
  state : EncoderState
  /-- `enc_bo` -/
  bo : Endian
  /-- `enc_wo` -/
  wo : Endian
  /-- `enc_repack` -/
  repack : Bool
  /-- `enc_chunks`, oldest first -/
  chunks : List (List Byte)
  deriving DecidableEq, Repr

/-- The decoder channel, the Payload Decoder (R27). -/
structure Decoder where
  /-- `dec_state` -/
  state : DecoderState
  /-- `dec_bo` -/
  bo : Endian
  /-- `dec_wo` -/
  wo : Endian
  /-- `dec_buf` -/
  buf : List Byte
  /-- `dec_cur` -/
  cur : Nat
  deriving DecidableEq, Repr

/-- One instance of the block with its ports, its error history, and the commands its host has yet to issue. -/
structure State where
  /-- The encoder channel (R25). -/
  enc : Encoder
  /-- The decoder channel (R27). -/
  dec : Decoder
  /-- `errlog` (R34). -/
  errlog : List StatusCode
  /-- The STATUS port: the code of the last command (R33, R41). -/
  status : StatusCode
  /-- The DOUT port: the result of the last command (R41, R42). -/
  dout : Payload
  /-- The CMD port: the word of the last command (R41). -/
  cmd : CommandWord
  /-- The DIN port: the operand of the last command, or of the one being performed (R41). -/
  din : Payload
  /-- The transactions the host has yet to issue, in program order (R22, R41). -/
  pending : List Transaction
  /-- The index of the host's next command in its sequence (R22). -/
  pos : Nat
  /-- The capacities of the byte stores (R57); no command writes them. -/
  cfg : Config
  deriving DecidableEq, Repr

/-- Why the machine stops with a fault. It has no constructor: every error of the spec is a response after which the block
goes on (R188), and the step is total (R43). -/
inductive Fault where
  deriving DecidableEq, Repr

/-- Why the machine has no meaning for a command. -/
inductive Refusal where
  /-- Raised by an arm of `exec` that has no meaning yet; safe. No arm raises it: all 47 commands have their meaning. -/
  | notModelled (mnemonic : String)
  deriving DecidableEq, Repr

/-- What one command answers. -/
abbrev Outcome := Host.Outcome State Fault Refusal

/-- The encoder channel after reset (R40). -/
def Encoder.reset : Encoder :=
  { state := .none, bo := .native, wo := .native, repack := false, chunks := [] }

/-- The decoder channel after reset (R40). -/
def Decoder.reset : Decoder :=
  { state := .none, bo := .native, wo := .native, buf := [], cur := 0 }

/-- The block right after reset with given capacities (R40, R210). R40 gives STATUS and DOUT; the CMD and DIN ports and the
host's sequence have no value in the spec (entries 1 and 3 of the assumption log, DESIGN CHOICE). -/
def State.resetWith (cfg : Config) : State :=
  { enc := Encoder.reset, dec := Decoder.reset, errlog := [], status := 0, dout := .none, cmd := 0, din := .none,
    pending := [], pos := 0, cfg := cfg }

/-- The block right after reset with the spec's default capacities (R40, R57, R210). -/
def State.reset : State := State.resetWith Config.unbounded

end Sys2Proof.Machine
end

