-- ==== Sys2Proof/Machine/Flags.lean ====
section
/-! DEFINITION. STATUS codes (R33, R180). The block has no condition codes and no flag that a later command reads (R32). -/

namespace Sys2Proof.Machine

/-- STATUS of a command that raised no error (R33). -/
def okCode : StatusCode := 0

/-- The code of an error (R180); 7 is never written. -/
def CommandError.code : CommandError → StatusCode
  | .invalidInput => 1
  | .truncatedBuffer => 2
  | .illegalCommand => 3
  | .notConstructed => 4
  | .sessionAborted => 5
  | .capacityExceeded => 6

/-- The code is one of the six error codes. -/
def isErrorCode (code : StatusCode) : Bool := code != 0 && code != 7

end Sys2Proof.Machine
end

