-- ==== Sys2Proof/Machine/Operands.lean ====
section
/-! DEFINITION. Operand forms: the DIN payload kinds that commands accept (R42, R78), the canonical byte encoding of a
pattern and its inverse (R10), and splitting a sequence into pieces (R9). -/

namespace Sys2Proof.Machine

/-- The pattern of a SCALAR(W, p) of width exactly `w`, as a number (R7, R78); another width is the wrong kind. -/
def Payload.scalarOf (w : Width) : Payload → Option Nat
  | .scalar w' p => if w' = w then some p.toNat else Option.none
  | .none | .bytes _ | .bits _ | .regs _ | .pairs _ | .malformed => Option.none

/-- The contents of a BYTES payload. -/
def Payload.bytesOf : Payload → Option (List Byte)
  | .bytes s => some s
  | .none | .scalar _ _ | .bits _ | .regs _ | .pairs _ | .malformed => Option.none

/-- The contents of a BITS payload. -/
def Payload.bitsOf : Payload → Option (List Bool)
  | .bits b => some b
  | .none | .scalar _ _ | .bytes _ | .regs _ | .pairs _ | .malformed => Option.none

/-- The contents of a REGS payload. -/
def Payload.regsOf : Payload → Option (List Register)
  | .regs r => some r
  | .none | .scalar _ _ | .bytes _ | .bits _ | .pairs _ | .malformed => Option.none

/-- The payload is NONE. -/
def Payload.noneOf : Payload → Option Unit
  | .none => some ()
  | .scalar _ _ | .bytes _ | .bits _ | .regs _ | .pairs _ | .malformed => Option.none

/-- A BYTES payload of exactly `n` bytes (R78, the transform commands). -/
def Payload.bytesOfLength (n : Nat) (p : Payload) : Option (List Byte) :=
  match p.bytesOf with
  | some s => if s.length = n then some s else Option.none
  | Option.none => Option.none

/-- The chunks a Builder starts with: none for DIN NONE, the seed for BYTES(seed), and no other kind is accepted (R105). -/
def Payload.seedChunks : Payload → Option (List (List Byte))
  | .none => some []
  | .bytes seed => some [seed]
  | .scalar _ _ | .bits _ | .regs _ | .pairs _ | .malformed => Option.none

/-- `BE_n(v)`: the `n`-byte big-endian encoding, most-significant byte first (R10). -/
def beBytes : Nat → Nat → List Byte
  | 0, _ => []
  | n + 1, v => BitVec.ofNat 8 (v / 256 ^ n) :: beBytes n v

/-- `BEval(s)`: the number that a byte sequence encodes big-endian (R10). -/
def beValue : List Byte → Nat
  | [] => 0
  | b :: s => b.toNat * 256 ^ s.length + beValue s

/-- The SCALAR(W, ·) payload of a number (R42). -/
def scalarPayload (w : Width) (v : Nat) : Payload := .scalar w (BitVec.ofNat w.bits v)

/-- `chunksOf` on at most `fuel` pieces. -/
def chunksUpTo {α : Type} (k : Nat) : Nat → List α → List (List α)
  | 0, _ => []
  | _ + 1, [] => []
  | fuel + 1, x :: s => (x :: s).take k :: chunksUpTo k fuel ((x :: s).drop k)

/-- `chunksOf(k, s)`: consecutive pieces of `k` elements, the last one shorter when `k` does not divide the length (R9). -/
def chunksOf {α : Type} (k : Nat) (s : List α) : List (List α) := chunksUpTo k s.length s

/-- The bits of a pattern, least-significant first (R8). -/
def bitsLsbFirst {n : Nat} (x : BitVec n) : List Bool := (List.range n).map fun i => x.getLsbD i

end Sys2Proof.Machine
end

