-- ==== Sys2Proof/Machine/Transform.lean ====
section
/-! DEFINITION. The word-order transform (R24, R85 to R90, R99) and the scalar encodings and decodings built on it (R101 to
R103, R148, R149). -/

namespace Sys2Proof.Machine

/-- The effective order: LITTLE if LITTLE, else BIG (R24). -/
def eff : Endian → Endian
  | .little => .little
  | .native => .big
  | .big => .big

/-- The 16-bit units of a byte sequence in network order (R85). -/
def units (s : List Byte) : List (List Byte) := chunksOf 2 s

/-- The unit byte swap (R86). A unit of another length does not occur in the rules and stays as it is (entry 8). -/
def swapUnit : List Byte → List Byte
  | [a, b] => [b, a]
  | u => u

/-- The byte swap of every unit, when byteOrder is LITTLE (R87). -/
def orderBytes (bo : Endian) (u : List (List Byte)) : List (List Byte) :=
  if eff bo = .little then u.map swapUnit else u

/-- The reversal of the unit order, when wordOrder is LITTLE (R87). -/
def orderUnits (wo : Endian) (u : List (List Byte)) : List (List Byte) :=
  if eff wo = .little then u.reverse else u

/-- The transform `xform(W, bo, wo, s)` (R87); 8-bit values bypass it (R88). -/
def xform (w : Width) (bo wo : Endian) (s : List Byte) : List Byte :=
  match w with
  | .w8 => s
  | .w16 | .w32 | .w64 => (orderUnits wo (orderBytes bo (units s))).flatten

/-- The inverse transform, which is the same function (R99). -/
def xinv (w : Width) (bo wo : Endian) (s : List Byte) : List Byte := xform w bo wo s

/-- `enc8(p) = [p]` (R101). -/
def enc8 (v : Nat) : List Byte := [BitVec.ofNat 8 v]

/-- `enc16(p)`: byteOrder orders the two bytes, wordOrder has no effect (R102). -/
def enc16 (bo : Endian) (v : Nat) : List Byte :=
  if eff bo = .little then (beBytes 2 v).reverse else beBytes 2 v

/-- The encoding of a W-bit pattern under the two orders (R101 to R103). -/
def encodeScalar (w : Width) (bo wo : Endian) (v : Nat) : List Byte :=
  match w with
  | .w8 => enc8 v
  | .w16 => enc16 bo v
  | .w32 => xform .w32 bo wo (beBytes 4 v)
  | .w64 => xform .w64 bo wo (beBytes 8 v)

/-- `dec8(s) = s[0]` (R148). The rules call it on one byte; an empty sequence would read as 0 (entry 8). -/
def dec8 (s : List Byte) : Nat := (s.headD 0).toNat

/-- `dec16(s)` (R148). -/
def dec16 (bo : Endian) (s : List Byte) : Nat :=
  if eff bo = .little then beValue s.reverse else beValue s

/-- The number that W/8 bytes stand for under the two orders (R148, R149). -/
def decodeScalar (w : Width) (bo wo : Endian) (s : List Byte) : Nat :=
  match w with
  | .w8 => dec8 s
  | .w16 => dec16 bo s
  | .w32 => beValue (xinv .w32 bo wo s)
  | .w64 => beValue (xinv .w64 bo wo s)

end Sys2Proof.Machine
end

