-- ==== Sys2Proof/Machine/Codec.lean ====
section
/-! DEFINITION. The bit-packing codec (R130 to R133) and the conversions between bytes, pairs, registers and coils (R121,
R123, R125, R142, R144). -/

namespace Sys2Proof.Machine

/-- The number whose bit i is the i-th boolean, least-significant first (R130). -/
def bitsValue : List Bool → Nat
  | [] => 0
  | b :: bs => (if b then 1 else 0) + 2 * bitsValue bs

/-- One packed byte of at most 8 booleans; missing high bits are 0 (R130, R131). -/
def packByte (g : List Bool) : Byte := BitVec.ofNat 8 (bitsValue g)

/-- `pack(b)`: a new byte every 8 bits (R130). -/
def pack (b : List Bool) : List Byte := (chunksOf 8 b).map packByte

/-- `unpack(d)`: the 8 bits of every byte, least-significant first (R132). -/
def unpack (d : List Byte) : List Bool := d.flatMap fun x => bitsLsbFirst x

/-- The zero byte that makes an odd length even (R121). -/
def padEven (e : List Byte) : List Byte := if e.length % 2 = 1 then e ++ [0] else e

/-- Consecutive bytes as pairs, `(e[2i], e[2i+1])` (R121). -/
def pairsOfBytes : List Byte → List (Byte × Byte)
  | a :: b :: e => (a, b) :: pairsOfBytes e
  | [_] => []
  | [] => []

/-- `build(e)` (R121). -/
def build (e : List Byte) : List (Byte × Byte) := pairsOfBytes (padEven e)

/-- The register of a pair: big-endian, or low byte first under repack with byteOrder LITTLE (R123). -/
def pairRegister (repack : Bool) (bo : Endian) (q : Byte × Byte) : Register :=
  if repack && eff bo == .little then BitVec.ofNat 16 (q.2.toNat * 256 + q.1.toNat)
  else BitVec.ofNat 16 (q.1.toNat * 256 + q.2.toNat)

/-- `toRegs(q)` (R123). -/
def toRegs (repack : Bool) (bo : Endian) (q : List (Byte × Byte)) : List Register := q.map (pairRegister repack bo)

/-- `toCoils(r)`: the 16 bits of every register, most-significant first (R125). -/
def toCoils (r : List Register) : List Bool := r.flatMap fun x => (bitsLsbFirst x).reverse

/-- `regsToBytes(r)`: every register high byte first, whatever the orders (R142). -/
def regsToBytes (r : List Register) : List Byte := r.flatMap fun x => beBytes 2 x.toNat

/-- The coils left-padded with `false` to a multiple of 8 (R144). -/
def padCoils (c : List Bool) : List Bool := List.replicate ((8 - c.length % 8) % 8) false ++ c

/-- `coilsToBytes(c)`: every group of 8 reversed and packed (R144). -/
def coilsToBytes (c : List Bool) : List Byte := (chunksOf 8 (padCoils c)).flatMap fun g => pack g.reverse

end Sys2Proof.Machine
end

