-- ==== Sys2Proof/Machine/Ops.lean ====
section
/-! DEFINITION. The named operations that the commands share: the byte stores (R45 to R47, R57), the error response, which
is all that the block has of an exception (R188, R192), the ready checks and operand checks (R78, R100, R146), sessions
(R105, R140), reads at the cursor (R147), and accepting the host's next command (R22, R41). -/

namespace Sys2Proof.Machine

/-! ### The byte stores -/

/-- `flat()`: the accumulator's contents (R119). -/
def Encoder.flat (e : Encoder) : List Byte := e.chunks.flatten

/-- `n` bytes fit a capacity (R57). -/
def fitsCapacity (cap : Option Nat) (n : Nat) : Bool :=
  match cap with
  | none => true
  | some c => decide (n ≤ c)

/-- `MemRead(addr, n)` on a buffer: no value outside the buffer, where R47 leaves it undefined. -/
def memRead (buf : List Byte) (addr n : Nat) : Option (List Byte) :=
  if addr + n ≤ buf.length then some ((buf.drop addr).take n) else none

/-- The byte of the encoder accumulator at an offset, none past its end. -/
def State.encoderByte (s : State) (a : Nat) : Option Byte := s.enc.flat[a]?

/-- The byte of the decoder buffer at an offset, none past its end. -/
def State.decoderByte (s : State) (a : Nat) : Option Byte := s.dec.buf[a]?

/-- The byte stores have their form: both within their capacities (R57), and the cursor within the decoder buffer (R29). -/
def Memory.wf (s : State) : Bool :=
  fitsCapacity s.cfg.encCap s.enc.flat.length && fitsCapacity s.cfg.decCap s.dec.buf.length
    && decide (s.dec.cur ≤ s.dec.buf.length)

/-! ### Named updates of the state -/

/-- `enc_chunks <- ch`. -/
def State.setChunks (s : State) (ch : List (List Byte)) : State := { s with enc := { s.enc with chunks := ch } }

/-- The writes of a successful B_INIT (R105). -/
def State.openEncoder (s : State) (bo wo : Endian) (repack : Bool) (ch : List (List Byte)) : State :=
  { s with enc := { state := .ready, bo := bo, wo := wo, repack := repack, chunks := ch } }

/-- The writes of a successful decoder constructor (R140). -/
def State.openDecoder (s : State) (bo wo : Endian) (buf : List Byte) : State :=
  { s with dec := { state := .ready, bo := bo, wo := wo, buf := buf, cur := 0 } }

/-- `dec_state <- ABORTED`, the only write that can come before an error response (R15, R140, R147). -/
def State.abortDecoder (s : State) : State := { s with dec := { s.dec with state := .aborted } }

/-- `dec_cur <- c`. -/
def State.setCursor (s : State) (c : Nat) : State := { s with dec := { s.dec with cur := c } }

/-- The OK response: STATUS 0 and the result on DOUT (R188). -/
def State.complete (s : State) (dout : Payload) : State := { s with status := okCode, dout := dout }

/-- The error response, the one operation by which a command raises an error: its code on STATUS and in `errlog`, NONE on
DOUT, and nothing else (R188, R189, R192). Nothing is saved, so there is no return beside it (R193). -/
def State.raise (s : State) (e : CommandError) : State :=
  { s with errlog := s.errlog ++ [e.code], status := e.code, dout := .none }

/-- The host puts its next transaction on CMD and DIN: it is no longer pending, and the position advances by one, whatever
becomes of the command (R22, R41). -/
def State.accept (s : State) (t : Transaction) (rest : List Transaction) : State :=
  { s with cmd := t.cmd, din := t.din, pending := rest, pos := s.pos + 1 }

/-- The next command word and the state in which it runs; none while the host issues nothing (R20, R211). -/
def State.nextCommand (s : State) : Option (CommandWord × State) :=
  match s.pending with
  | [] => none
  | t :: rest => some (t.cmd, s.accept t rest)

/-! ### What a command's rule gives -/

/-- The result of a command's rule: ok(s', dout), or err(s'', E) where s'' holds the abort write, if any (R188). -/
inductive Reply where
  | ok (s : State) (dout : Payload)
  | err (s : State) (e : CommandError)
  deriving DecidableEq, Repr

/-- The state in which a command answers (R188). -/
def Reply.state : Reply → State
  | .ok s dout => s.complete dout
  | .err s e => s.raise e

/-- The response to a command (R43, R188). -/
def respond (r : Reply) : Outcome := .next r.state

/-- `expect din = K(x) else raise InvalidInput` (R13, R181). -/
def expectOperand {α : Type} (x : Option α) (s : State) (k : α → Reply) : Reply :=
  match x with
  | some v => k v
  | none => .err s .invalidInput

/-! ### The encoder channel -/

/-- `BuilderReady()` (R100, R184). -/
def builderReady (s : State) (k : Reply) : Reply :=
  match s.enc.state with
  | .none => .err s .notConstructed
  | .ready => k

/-- `Append(chunk)` (R46, R186). -/
def appendChunk (s : State) (chunk : List Byte) : Reply :=
  if fitsCapacity s.cfg.encCap (s.enc.flat.length + chunk.length) then
    .ok (s.setChunks (s.enc.chunks ++ [chunk])) .none
  else .err s .capacityExceeded

/-- The scalar add template (R104). -/
def addScalar (w : Width) (s : State) : Reply :=
  builderReady s <| expectOperand (s.din.scalarOf w) s fun v =>
    appendChunk s (encodeScalar w s.enc.bo s.enc.wo v)

/-- A conversion: reads the accumulator and writes nothing (R55, R128). -/
def readAccumulator (s : State) (result : Payload) : Reply :=
  builderReady s <| expectOperand s.din.noneOf s fun _ => .ok s result

/-- The pairs of the accumulator (R121, R122). -/
def Encoder.pairs (e : Encoder) : List (Byte × Byte) := build e.flat

/-- The registers of the accumulator (R123, R124). -/
def Encoder.registers (e : Encoder) : List Register := toRegs e.repack e.bo e.pairs

/-- The coils of the accumulator (R125, R126). -/
def Encoder.coils (e : Encoder) : List Bool := toCoils e.registers

/-- The construction of the Builder (R105). -/
def constructEncoder (bo wo : Endian) (repack : Bool) (s : State) : Reply :=
  expectOperand s.din.seedChunks s fun ch =>
    if fitsCapacity s.cfg.encCap ch.flatten.length then .ok (s.openEncoder bo wo repack ch) .none
    else .err s .capacityExceeded

/-! ### The decoder channel -/

/-- `Construct(buf, bo, wo)` (R140). -/
def constructDecoder (bo wo : Endian) (s : State) (buf : List Byte) : Reply :=
  if fitsCapacity s.cfg.decCap buf.length then .ok (s.openDecoder bo wo buf) .none
  else .err s.abortDecoder .capacityExceeded

/-- A decoder constructor: a rejected DIN aborts the channel (`ConstructFail`, R140), an accepted one is turned into the
buffer (R141, R143, R145). -/
def decoderFrom (operand : Option (List Byte)) (bo wo : Endian) (s : State) : Reply :=
  expectOperand operand s.abortDecoder fun buf => constructDecoder bo wo s buf

/-- `DecoderReady()` (R146, R184, R185). -/
def decoderReady (s : State) (k : Reply) : Reply :=
  match s.dec.state with
  | .none => .err s .notConstructed
  | .aborted => .err s .sessionAborted
  | .ready => expectOperand s.din.noneOf s fun _ => k

/-- `Take(n)`: the bytes at the cursor and the state with the cursor behind them, or the abort (R147, R182). -/
def takeBytes (n : Nat) (s : State) (k : State → List Byte → Reply) : Reply :=
  match memRead s.dec.buf s.dec.cur n with
  | some bytes => k (s.setCursor (s.dec.cur + n)) bytes
  | none => .err s.abortDecoder .truncatedBuffer

/-- A decoder command that reads `n` bytes and answers with what they give (R147). -/
def decodeBytes (n : Nat) (s : State) (result : List Byte → Payload) : Reply :=
  decoderReady s <| takeBytes n s fun s' bytes => .ok s' (result bytes)

/-- The typed decode template (44_decoder.md section 3, R148, R149). -/
def decodeTyped (w : Width) (s : State) : Reply :=
  decodeBytes w.bytes s fun bytes => scalarPayload w (decodeScalar w s.dec.bo s.dec.wo bytes)

/-! ### The stateless commands -/

/-- A command that computes its result from DIN alone (R44, R187). -/
def computeStateless {α : Type} (operand : Option α) (s : State) (result : α → Payload) : Reply :=
  expectOperand operand s fun x => .ok s (result x)

end Sys2Proof.Machine
end

