-- ==== Sys2Proof/Machine/BitPacking.lean ====
section
/-! DEFINITION. The meanings of PACK and UNPACK (R134, R135). -/

namespace Sys2Proof.Machine

/-- PACK (R134). -/
def execPack (s : State) : Outcome := respond (computeStateless s.din.bitsOf s fun b => .bytes (pack b))

/-- UNPACK (R135). -/
def execUnpack (s : State) : Outcome := respond (computeStateless s.din.bytesOf s fun d => .bits (unpack d))

end Sys2Proof.Machine
end

