-- ==== Sys2Proof/Machine/Builder.lean ====
section
/-! DEFINITION. The meanings of the encoder channel's commands, B_INIT to B_RESET (R105 to R127). -/

namespace Sys2Proof.Machine

/-- B_INIT (R105). -/
def execBInit (bo wo : Endian) (repack : Bool) (s : State) : Outcome := respond (constructEncoder bo wo repack s)

/-- B_ADD_U8 (R106). -/
def execBAddU8 (s : State) : Outcome := respond (addScalar .w8 s)

/-- B_ADD_I8 (R107). -/
def execBAddI8 (s : State) : Outcome := respond (addScalar .w8 s)

/-- B_ADD_U16 (R108). -/
def execBAddU16 (s : State) : Outcome := respond (addScalar .w16 s)

/-- B_ADD_I16 (R109). -/
def execBAddI16 (s : State) : Outcome := respond (addScalar .w16 s)

/-- B_ADD_F16 (R110). -/
def execBAddF16 (s : State) : Outcome := respond (addScalar .w16 s)

/-- B_ADD_U32 (R111). -/
def execBAddU32 (s : State) : Outcome := respond (addScalar .w32 s)

/-- B_ADD_I32 (R112). -/
def execBAddI32 (s : State) : Outcome := respond (addScalar .w32 s)

/-- B_ADD_F32 (R113). -/
def execBAddF32 (s : State) : Outcome := respond (addScalar .w32 s)

/-- B_ADD_U64 (R114). -/
def execBAddU64 (s : State) : Outcome := respond (addScalar .w64 s)

/-- B_ADD_I64 (R115). -/
def execBAddI64 (s : State) : Outcome := respond (addScalar .w64 s)

/-- B_ADD_F64 (R116). -/
def execBAddF64 (s : State) : Outcome := respond (addScalar .w64 s)

/-- B_ADD_STR (R117). -/
def execBAddStr (s : State) : Outcome :=
  respond (builderReady s <| expectOperand s.din.bytesOf s fun x => appendChunk s x)

/-- B_ADD_BITS (R118). -/
def execBAddBits (s : State) : Outcome :=
  respond (builderReady s <| expectOperand s.din.bitsOf s fun b => appendChunk s (pack b))

/-- B_ENCODE (R120). -/
def execBEncode (s : State) : Outcome := respond (readAccumulator s (.bytes s.enc.flat))

/-- B_BUILD (R122). -/
def execBBuild (s : State) : Outcome := respond (readAccumulator s (.pairs s.enc.pairs))

/-- B_TO_REGS (R124). -/
def execBToRegs (s : State) : Outcome := respond (readAccumulator s (.regs s.enc.registers))

/-- B_TO_COILS (R126). -/
def execBToCoils (s : State) : Outcome := respond (readAccumulator s (.bits s.enc.coils))

/-- B_RESET (R127). -/
def execBReset (s : State) : Outcome :=
  respond (builderReady s <| expectOperand s.din.noneOf s fun _ => .ok (s.setChunks []) .none)

end Sys2Proof.Machine
end

