-- ==== Sys2Proof/Machine/Decoder.lean ====
section
/-! DEFINITION. The meanings of the decoder channel's commands, D_INIT_RAW to D_RESET (R141 to R164). -/

namespace Sys2Proof.Machine

/-- D_INIT_RAW (R141). -/
def execDInitRaw (bo wo : Endian) (s : State) : Outcome := respond (decoderFrom s.din.bytesOf bo wo s)

/-- D_FROM_REGS (R143). -/
def execDFromRegs (bo wo : Endian) (s : State) : Outcome :=
  respond (decoderFrom (s.din.regsOf.map regsToBytes) bo wo s)

/-- D_FROM_COILS (R145): the WO field is ignored, and the channel's wordOrder is BIG. -/
def execDFromCoils (bo : Endian) (_ignoredWo : BitVec 2) (s : State) : Outcome :=
  respond (decoderFrom (s.din.bitsOf.map coilsToBytes) bo .big s)

/-- D_U8 (R150). -/
def execDU8 (s : State) : Outcome := respond (decodeTyped .w8 s)

/-- D_I8 (R151). -/
def execDI8 (s : State) : Outcome := respond (decodeTyped .w8 s)

/-- D_U16 (R152). -/
def execDU16 (s : State) : Outcome := respond (decodeTyped .w16 s)

/-- D_I16 (R153). -/
def execDI16 (s : State) : Outcome := respond (decodeTyped .w16 s)

/-- D_F16 (R154). -/
def execDF16 (s : State) : Outcome := respond (decodeTyped .w16 s)

/-- D_U32 (R155). -/
def execDU32 (s : State) : Outcome := respond (decodeTyped .w32 s)

/-- D_I32 (R156). -/
def execDI32 (s : State) : Outcome := respond (decodeTyped .w32 s)

/-- D_F32 (R157). -/
def execDF32 (s : State) : Outcome := respond (decodeTyped .w32 s)

/-- D_U64 (R158). -/
def execDU64 (s : State) : Outcome := respond (decodeTyped .w64 s)

/-- D_I64 (R159). -/
def execDI64 (s : State) : Outcome := respond (decodeTyped .w64 s)

/-- D_F64 (R160). -/
def execDF64 (s : State) : Outcome := respond (decodeTyped .w64 s)

/-- D_BITS (R161). -/
def execDBits (count : Nat) (s : State) : Outcome := respond (decodeBytes count s fun bytes => .bits (unpack bytes))

/-- D_STR (R162). -/
def execDStr (count : Nat) (s : State) : Outcome := respond (decodeBytes count s fun bytes => .bytes bytes)

/-- D_SKIP (R163): the bytes read are discarded. -/
def execDSkip (count : Nat) (s : State) : Outcome := respond (decodeBytes count s fun _ => .none)

/-- D_RESET (R164). -/
def execDReset (s : State) : Outcome := respond (decoderReady s (.ok (s.setCursor 0) .none))

end Sys2Proof.Machine
end

