-- ==== Sys2Proof/Machine/WordOrder.lean ====
section
/-! DEFINITION. The meanings of XFWD8 to XFWD64 and XINV8 to XINV64 (R91 to R98). -/

namespace Sys2Proof.Machine

/-- The forward transform of DIN (R91 to R94). -/
def forwardTransform (w : Width) (bo wo : Endian) (s : State) : Reply :=
  computeStateless (s.din.bytesOfLength w.bytes) s fun x => .bytes (xform w bo wo x)

/-- The inverse transform of DIN (R95 to R98). -/
def inverseTransform (w : Width) (bo wo : Endian) (s : State) : Reply :=
  computeStateless (s.din.bytesOfLength w.bytes) s fun x => .bytes (xinv w bo wo x)

/-- XFWD8 (R91). -/
def execXfwd8 (bo wo : Endian) (s : State) : Outcome := respond (forwardTransform .w8 bo wo s)

/-- XFWD16 (R92). -/
def execXfwd16 (bo wo : Endian) (s : State) : Outcome := respond (forwardTransform .w16 bo wo s)

/-- XFWD32 (R93). -/
def execXfwd32 (bo wo : Endian) (s : State) : Outcome := respond (forwardTransform .w32 bo wo s)

/-- XFWD64 (R94). -/
def execXfwd64 (bo wo : Endian) (s : State) : Outcome := respond (forwardTransform .w64 bo wo s)

/-- XINV8 (R95). -/
def execXinv8 (bo wo : Endian) (s : State) : Outcome := respond (inverseTransform .w8 bo wo s)

/-- XINV16 (R96). -/
def execXinv16 (bo wo : Endian) (s : State) : Outcome := respond (inverseTransform .w16 bo wo s)

/-- XINV32 (R97). -/
def execXinv32 (bo wo : Endian) (s : State) : Outcome := respond (inverseTransform .w32 bo wo s)

/-- XINV64 (R98). -/
def execXinv64 (bo wo : Endian) (s : State) : Outcome := respond (inverseTransform .w64 bo wo s)

end Sys2Proof.Machine
end

