-- ==== Sys2Proof/Machine/Dispatch.lean ====
section
/-! DEFINITION. The meaning of every command: one arm per constructor of Instr (R73, R188). -/

namespace Sys2Proof.Machine

/-- Runs a decoded command. -/
def exec (i : Instr) (s : State) : Host.Outcome State Fault Refusal :=
  match i with
  | .xfwd8 bo wo => Sys2Proof.Machine.execXfwd8 bo wo s
  | .xfwd16 bo wo => Sys2Proof.Machine.execXfwd16 bo wo s
  | .xfwd32 bo wo => Sys2Proof.Machine.execXfwd32 bo wo s
  | .xfwd64 bo wo => Sys2Proof.Machine.execXfwd64 bo wo s
  | .xinv8 bo wo => Sys2Proof.Machine.execXinv8 bo wo s
  | .xinv16 bo wo => Sys2Proof.Machine.execXinv16 bo wo s
  | .xinv32 bo wo => Sys2Proof.Machine.execXinv32 bo wo s
  | .xinv64 bo wo => Sys2Proof.Machine.execXinv64 bo wo s
  | .pack => Sys2Proof.Machine.execPack s
  | .unpack => Sys2Proof.Machine.execUnpack s
  | .bInit bo wo repack => Sys2Proof.Machine.execBInit bo wo repack s
  | .bAddU8 => Sys2Proof.Machine.execBAddU8 s
  | .bAddI8 => Sys2Proof.Machine.execBAddI8 s
  | .bAddU16 => Sys2Proof.Machine.execBAddU16 s
  | .bAddI16 => Sys2Proof.Machine.execBAddI16 s
  | .bAddF16 => Sys2Proof.Machine.execBAddF16 s
  | .bAddU32 => Sys2Proof.Machine.execBAddU32 s
  | .bAddI32 => Sys2Proof.Machine.execBAddI32 s
  | .bAddF32 => Sys2Proof.Machine.execBAddF32 s
  | .bAddU64 => Sys2Proof.Machine.execBAddU64 s
  | .bAddI64 => Sys2Proof.Machine.execBAddI64 s
  | .bAddF64 => Sys2Proof.Machine.execBAddF64 s
  | .bAddStr => Sys2Proof.Machine.execBAddStr s
  | .bAddBits => Sys2Proof.Machine.execBAddBits s
  | .bEncode => Sys2Proof.Machine.execBEncode s
  | .bBuild => Sys2Proof.Machine.execBBuild s
  | .bToRegs => Sys2Proof.Machine.execBToRegs s
  | .bToCoils => Sys2Proof.Machine.execBToCoils s
  | .bReset => Sys2Proof.Machine.execBReset s
  | .dInitRaw bo wo => Sys2Proof.Machine.execDInitRaw bo wo s
  | .dFromRegs bo wo => Sys2Proof.Machine.execDFromRegs bo wo s
  | .dFromCoils bo ignoredWo => Sys2Proof.Machine.execDFromCoils bo ignoredWo s
  | .dU8 => Sys2Proof.Machine.execDU8 s
  | .dI8 => Sys2Proof.Machine.execDI8 s
  | .dU16 => Sys2Proof.Machine.execDU16 s
  | .dI16 => Sys2Proof.Machine.execDI16 s
  | .dF16 => Sys2Proof.Machine.execDF16 s
  | .dU32 => Sys2Proof.Machine.execDU32 s
  | .dI32 => Sys2Proof.Machine.execDI32 s
  | .dF32 => Sys2Proof.Machine.execDF32 s
  | .dU64 => Sys2Proof.Machine.execDU64 s
  | .dI64 => Sys2Proof.Machine.execDI64 s
  | .dF64 => Sys2Proof.Machine.execDF64 s
  | .dBits count => Sys2Proof.Machine.execDBits count s
  | .dStr count => Sys2Proof.Machine.execDStr count s
  | .dSkip count => Sys2Proof.Machine.execDSkip count s
  | .dReset => Sys2Proof.Machine.execDReset s

end Sys2Proof.Machine
end

