-- ==== Sys2Proof/Machine/Perform.lean ====
section
/-! DEFINITION. Performing one transaction: decoding its word, then running its rule (R43, R183, R188). -/

namespace Sys2Proof.Machine

/-- Performs a command word on a state whose DIN port holds its operand: an illegal word raises IllegalCommand before
anything else (R183), a legal one runs its rule (R188). -/
def perform (cmd : CommandWord) (s : State) : Host.Outcome State Fault Refusal :=
  match decodeCmd cmd with
  | .error _ => respond (.err s .illegalCommand)
  | .ok i => exec i s

/-- R43's `step(s, cmd, din)`: the host issues one transaction and the block performs it. The STATUS and DOUT of the
next state are the response. -/
def transact (s : State) (cmd : CommandWord) (din : Payload) : Host.Outcome State Fault Refusal :=
  perform cmd (s.accept ⟨cmd, din⟩ s.pending)

end Sys2Proof.Machine
end

