-- ==== Sys2Proof/Machine/Step.lean ====
section
/-! DEFINITION. One step of the block (R43, R188), and how a word is placed as the next command. -/

namespace Sys2Proof.Machine

/-- One step: the host's next command, or nothing while none is pending (R20, R43, R211). -/
def step (s : State) : Host.Outcome State Fault Refusal :=
  match s.nextCommand with
  | none => .next s
  | some (cmd, s') => perform cmd s'

/-- `s` with the table word `w` of `nbits` bits as the word of the host's next command. The word replaces the one of the
pending transaction and leaves its DIN; when none is pending, the transaction's DIN is NONE (entry 1). -/
def State.withFetchWord (s : State) (nbits w : Nat) : State :=
  match s.pending with
  | [] => { s with pending := [⟨BitVec.ofNat 32 (w % 2 ^ nbits), .none⟩] }
  | t :: rest => { s with pending := ⟨BitVec.ofNat 32 (w % 2 ^ nbits), t.din⟩ :: rest }

end Sys2Proof.Machine
end

