-- ==== Sys2Proof/Machine/Assembler.lean ====
section
/-! DEFINITION. The assembler's forms and defaults (R80, R81), over a line that is already cut into its parts; reading
characters is left to the tool (entry 13). -/

namespace Sys2Proof.Machine

/-- The first word of a line: a mnemonic of the opcode map, or one of the two pseudo-instructions (R81). -/
inductive AsmName where
  | plain (mnemonic : String)
  | xfwd (w : Width)
  | xinv (w : Width)
  deriving DecidableEq, Repr

/-- `MNEMONIC [BO[, WO[, REPACK]]] [#COUNT] [<- payload]` (R80); an omitted payload is NONE. -/
structure AsmLine where
  name : AsmName
  bo : Option Endian
  wo : Option Endian
  repack : Option Bool
  count : Option Nat
  din : Payload
  deriving DecidableEq, Repr

/-- The mnemonic that a first word stands for (R81). -/
def AsmName.mnemonic : AsmName → String
  | .plain m => m
  | .xfwd .w8 => "XFWD8"
  | .xfwd .w16 => "XFWD16"
  | .xfwd .w32 => "XFWD32"
  | .xfwd .w64 => "XFWD64"
  | .xinv .w8 => "XINV8"
  | .xinv .w16 => "XINV16"
  | .xinv .w32 => "XINV32"
  | .xinv .w64 => "XINV64"

/-- A written field is one that the command uses (R80). -/
def fieldAllowed {α : Type} (use : FieldUse) (field : Option α) : Bool := field.isNone || use == .used

/-- The line has a form of R80 for its command: only used fields are written, WO only after BO and REPACK only after WO,
and the count fits its field (R71). -/
def AsmLine.legal (l : AsmLine) (u : GroupUse) : Bool :=
  fieldAllowed u.bo l.bo && fieldAllowed u.wo l.wo && fieldAllowed u.repack l.repack && fieldAllowed u.count l.count
    && (l.wo.isNone || l.bo.isSome) && (l.repack.isNone || l.wo.isSome) && countFits (l.count.getD 0)

/-- The count of a line that writes none: 1 for D_BITS, else 0 (R80, R81). -/
def defaultCount (mnemonic : String) : Nat := if mnemonic == "D_BITS" then 1 else 0

/-- The transaction that a line stands for (R80, R81, R83); none when the line has no form of R80. -/
def assemble (l : AsmLine) : Option Transaction :=
  match opcodeRows.find? fun r => r.mnemonic == l.name.mnemonic with
  | none => none
  | some r =>
    if l.legal r.group.use then
      some
        { cmd :=
            commandWord r.opc (l.bo.getD .native).code (l.wo.getD .native).code
              (BitVec.ofBool (l.repack.getD false)) (l.count.getD (defaultCount r.mnemonic))
          din := l.din }
    else none

end Sys2Proof.Machine
end

