-- ==== Sys2Proof/Machine/Group.lean ====
section
/-! DEFINITION. Several independent blocks (P_INSTANCES of R6; R59, R199, D31): a list of copies that share nothing, of
which one at a time takes a step. -/

namespace Sys2Proof.Machine

/-- `n` blocks after reset; the spec's default is one (R6). -/
def resetGroup (n : Nat := Config.defaultInstances) : List State := List.replicate n State.reset

/-- The `k`-th block takes a step and the others stay as they are (R59). There is nothing to do at an index past the end. -/
def stepGroup (k : Nat) (g : List State) : Host.Outcome (List State) Fault Refusal :=
  match g[k]? with
  | none => .next g
  | some s =>
    match step s with
    | .next s' => .next (g.set k s')
    | .fault r => .fault r
    | .refused r => .refused r

/-- A run of the group: the blocks step in the order of the schedule (R59). -/
def runGroup : List Nat → List State → Host.Outcome (List State) Fault Refusal
  | [], g => .next g
  | k :: ks, g =>
    match stepGroup k g with
    | .next g' => runGroup ks g'
    | .fault r => .fault r
    | .refused r => .refused r

end Sys2Proof.Machine
end

