-- ==== Sys2Proof/Machine/HostView.lean ====
section
/-! DEFINITION. The host's signed view of a pattern (R11). No command uses it: the block moves patterns only. -/

namespace Sys2Proof.Machine

/-- The signed number that a W-bit pattern stands for: `p − 2^W` when its top bit is 1, else `p` (R11). -/
def signedView {n : Nat} (p : BitVec n) : Int := if p.msb then (p.toNat : Int) - 2 ^ n else (p.toNat : Int)

/-- The W-bit pattern of a signed number, `x mod 2^W` (R11). -/
def signedPattern (n : Nat) (x : Int) : BitVec n := BitVec.ofNat n (x % 2 ^ n).toNat

end Sys2Proof.Machine
end

