-- ==== Sys2Proof/Safety.lean ====
section
/-! DEFINITION. The terms that claims use: what a command touches, which operands it accepts (R78) and which result it gives
(R79), the invariant of a state, and what counts as a run without error (R34, R189). -/

namespace Sys2Proof

/-- What a command does to the channels (R44, R45). -/
inductive CommandKind where
  /-- XFWD*, XINV*, PACK, UNPACK: no channel state (R44). -/
  | stateless
  /-- B_INIT (R105). -/
  | encoderConstruct
  /-- B_ADD_* (R106 to R118). -/
  | encoderAdd
  /-- B_ENCODE, B_BUILD, B_TO_REGS, B_TO_COILS (R128). -/
  | encoderRead
  /-- B_RESET (R127). -/
  | encoderClear
  /-- D_INIT_RAW, D_FROM_REGS, D_FROM_COILS (R140). -/
  | decoderConstruct
  /-- A read or skip of `n` bytes at the cursor (R147). -/
  | decoderTake (n : Nat)
  /-- D_RESET (R164). -/
  | decoderRewind
  deriving DecidableEq, Repr

/-- The kind of every command. -/
def Instr.kind : Instr → CommandKind
  | .xfwd8 _ _ | .xfwd16 _ _ | .xfwd32 _ _ | .xfwd64 _ _ => .stateless
  | .xinv8 _ _ | .xinv16 _ _ | .xinv32 _ _ | .xinv64 _ _ => .stateless
  | .pack | .unpack => .stateless
  | .bInit _ _ _ => .encoderConstruct
  | .bAddU8 | .bAddI8 | .bAddU16 | .bAddI16 | .bAddF16 => .encoderAdd
  | .bAddU32 | .bAddI32 | .bAddF32 | .bAddU64 | .bAddI64 | .bAddF64 => .encoderAdd
  | .bAddStr | .bAddBits => .encoderAdd
  | .bEncode | .bBuild | .bToRegs | .bToCoils => .encoderRead
  | .bReset => .encoderClear
  | .dInitRaw _ _ | .dFromRegs _ _ | .dFromCoils _ _ => .decoderConstruct
  | .dU8 | .dI8 => .decoderTake 1
  | .dU16 | .dI16 | .dF16 => .decoderTake 2
  | .dU32 | .dI32 | .dF32 => .decoderTake 4
  | .dU64 | .dI64 | .dF64 => .decoderTake 8
  | .dBits count | .dStr count | .dSkip count => .decoderTake count
  | .dReset => .decoderRewind

/-- B_* commands other than B_INIT: they need a constructed Builder (R100). -/
def CommandKind.needsEncoder : CommandKind → Bool
  | .encoderAdd | .encoderRead | .encoderClear => true
  | .stateless | .encoderConstruct | .decoderConstruct | .decoderTake _ | .decoderRewind => false

/-- D_* commands other than the constructors: they need an open decoder session (R146). -/
def CommandKind.needsDecoder : CommandKind → Bool
  | .decoderTake _ | .decoderRewind => true
  | .stateless | .encoderConstruct | .encoderAdd | .encoderRead | .encoderClear | .decoderConstruct => false

/-- Commands of the encoder channel. -/
def CommandKind.isEncoder : CommandKind → Bool
  | .encoderConstruct | .encoderAdd | .encoderRead | .encoderClear => true
  | .stateless | .decoderConstruct | .decoderTake _ | .decoderRewind => false

/-- Commands of the decoder channel. -/
def CommandKind.isDecoder : CommandKind → Bool
  | .decoderConstruct | .decoderTake _ | .decoderRewind => true
  | .stateless | .encoderConstruct | .encoderAdd | .encoderRead | .encoderClear => false

/-- The bytes a command takes at the cursor (R147). -/
def CommandKind.taken : CommandKind → Nat
  | .decoderTake n => n
  | .stateless | .encoderConstruct | .encoderAdd | .encoderRead | .encoderClear | .decoderConstruct | .decoderRewind => 0

namespace Machine

/-- The kinds of payload, with the width of a scalar and the length of a byte sequence where a rule fixes one (R42). -/
inductive PayloadForm where
  | nothing
  | scalar (w : Width)
  | bytes
  | bytesOfLength (n : Nat)
  | bits
  | bitsOfLength (n : Nat)
  | regs
  | pairs
  | nothingOrBytes
  deriving DecidableEq, Repr

/-- A payload has a form. -/
def Payload.hasForm (p : Payload) : PayloadForm → Bool
  | .nothing => p == .none
  | .scalar w => match p with
    | .scalar w' _ => w' == w
    | .none | .bytes _ | .bits _ | .regs _ | .pairs _ | .malformed => false
  | .bytes => match p with
    | .bytes _ => true
    | .none | .scalar _ _ | .bits _ | .regs _ | .pairs _ | .malformed => false
  | .bytesOfLength n => match p with
    | .bytes s => s.length == n
    | .none | .scalar _ _ | .bits _ | .regs _ | .pairs _ | .malformed => false
  | .bits => match p with
    | .bits _ => true
    | .none | .scalar _ _ | .bytes _ | .regs _ | .pairs _ | .malformed => false
  | .bitsOfLength n => match p with
    | .bits b => b.length == n
    | .none | .scalar _ _ | .bytes _ | .regs _ | .pairs _ | .malformed => false
  | .regs => match p with
    | .regs _ => true
    | .none | .scalar _ _ | .bytes _ | .bits _ | .pairs _ | .malformed => false
  | .pairs => match p with
    | .pairs _ => true
    | .none | .scalar _ _ | .bytes _ | .bits _ | .regs _ | .malformed => false
  | .nothingOrBytes => match p with
    | .none | .bytes _ => true
    | .scalar _ _ | .bits _ | .regs _ | .pairs _ | .malformed => false

end Machine

open Machine in
/-- The DIN form that every command accepts: the table of R78. -/
def Instr.operandForm : Instr → PayloadForm
  | .xfwd8 _ _ | .xinv8 _ _ => .bytesOfLength 1
  | .xfwd16 _ _ | .xinv16 _ _ => .bytesOfLength 2
  | .xfwd32 _ _ | .xinv32 _ _ => .bytesOfLength 4
  | .xfwd64 _ _ | .xinv64 _ _ => .bytesOfLength 8
  | .pack => .bits
  | .unpack => .bytes
  | .bInit _ _ _ => .nothingOrBytes
  | .bAddU8 | .bAddI8 => .scalar .w8
  | .bAddU16 | .bAddI16 | .bAddF16 => .scalar .w16
  | .bAddU32 | .bAddI32 | .bAddF32 => .scalar .w32
  | .bAddU64 | .bAddI64 | .bAddF64 => .scalar .w64
  | .bAddStr => .bytes
  | .bAddBits => .bits
  | .bEncode | .bBuild | .bToRegs | .bToCoils | .bReset => .nothing
  | .dInitRaw _ _ => .bytes
  | .dFromRegs _ _ => .regs
  | .dFromCoils _ _ => .bits
  | .dU8 | .dI8 | .dU16 | .dI16 | .dF16 => .nothing
  | .dU32 | .dI32 | .dF32 | .dU64 | .dI64 | .dF64 => .nothing
  | .dBits _ | .dStr _ | .dSkip _ | .dReset => .nothing

open Machine in
/-- The DOUT form that every command gives on OK: the table of R79. -/
def Instr.resultForm : Instr → PayloadForm
  | .xfwd8 _ _ | .xinv8 _ _ => .bytesOfLength 1
  | .xfwd16 _ _ | .xinv16 _ _ => .bytesOfLength 2
  | .xfwd32 _ _ | .xinv32 _ _ => .bytesOfLength 4
  | .xfwd64 _ _ | .xinv64 _ _ => .bytesOfLength 8
  | .pack => .bytes
  | .unpack => .bits
  | .bInit _ _ _ | .bReset => .nothing
  | .bAddU8 | .bAddI8 | .bAddU16 | .bAddI16 | .bAddF16 => .nothing
  | .bAddU32 | .bAddI32 | .bAddF32 | .bAddU64 | .bAddI64 | .bAddF64 => .nothing
  | .bAddStr | .bAddBits => .nothing
  | .bEncode => .bytes
  | .bBuild => .pairs
  | .bToRegs => .regs
  | .bToCoils => .bits
  | .dInitRaw _ _ | .dFromRegs _ _ | .dFromCoils _ _ => .nothing
  | .dU8 | .dI8 => .scalar .w8
  | .dU16 | .dI16 | .dF16 => .scalar .w16
  | .dU32 | .dI32 | .dF32 => .scalar .w32
  | .dU64 | .dI64 | .dF64 => .scalar .w64
  | .dBits count => .bitsOfLength (8 * count)
  | .dStr count => .bytesOfLength count
  | .dSkip _ | .dReset => .nothing

/-- The scalar adds and their widths (R106 to R116). -/
def scalarAdds : List (Instr × Width) :=
  [(.bAddU8, .w8), (.bAddI8, .w8), (.bAddU16, .w16), (.bAddI16, .w16), (.bAddF16, .w16), (.bAddU32, .w32), (.bAddI32, .w32),
    (.bAddF32, .w32), (.bAddU64, .w64), (.bAddI64, .w64), (.bAddF64, .w64)]

/-- The typed decodes and their widths (R150 to R160). -/
def typedDecodes : List (Instr × Width) :=
  [(.dU8, .w8), (.dI8, .w8), (.dU16, .w16), (.dI16, .w16), (.dF16, .w16), (.dU32, .w32), (.dI32, .w32), (.dF32, .w32),
    (.dU64, .w64), (.dI64, .w64), (.dF64, .w64)]

/-- The adds and decodes of the same U, I or F kind and the same width, with that width (R166). -/
def matchingScalars : List (Instr × Instr × Width) :=
  [(.bAddU8, .dU8, .w8), (.bAddI8, .dI8, .w8), (.bAddU16, .dU16, .w16), (.bAddI16, .dI16, .w16), (.bAddF16, .dF16, .w16),
    (.bAddU32, .dU32, .w32), (.bAddI32, .dI32, .w32), (.bAddF32, .dF32, .w32), (.bAddU64, .dU64, .w64),
    (.bAddI64, .dI64, .w64), (.bAddF64, .dF64, .w64)]

namespace Machine

/-- `n` bytes do not exceed a capacity (R57). -/
def WithinCapacity (cap : Option Nat) (n : Nat) : Prop := ∀ c, cap = some c → n ≤ c

/-- The invariant of a state: the byte stores have their form (R29, R57), STATUS is never 7 (R33), an error left DOUT
NONE and is the last entry of `errlog` (R33, R189), and `errlog` holds error codes only (R34). -/
structure State.Inv (s : State) : Prop where
  stores : Memory.wf s = true
  status_assigned : s.status ≠ 7
  error_no_result : s.status ≠ 0 → s.dout = .none
  error_logged : s.status ≠ 0 → s.errlog.getLast? = some s.status
  errlog_codes : ∀ c ∈ s.errlog, isErrorCode c = true

/-- What no command's rule changes: the transaction on the ports, the host's sequence and position, and the
capacities. -/
structure KeepsInputs (s t : State) : Prop where
  cmd : t.cmd = s.cmd
  din : t.din = s.din
  pending : t.pending = s.pending
  pos : t.pos = s.pos
  cfg : t.cfg = s.cfg

/-- Every byte of the encoder accumulator reads as before. -/
def SameEncoderBytes (s t : State) : Prop := ∀ a, t.encoderByte a = s.encoderByte a

/-- Every byte of the decoder buffer reads as before. -/
def SameDecoderBytes (s t : State) : Prop := ∀ a, t.decoderByte a = s.decoderByte a

/-- The encoder configuration is unchanged (R26). -/
def SameEncoderConfig (s t : State) : Prop :=
  t.enc.bo = s.enc.bo ∧ t.enc.wo = s.enc.wo ∧ t.enc.repack = s.enc.repack

/-- The decoder configuration is unchanged (R28). -/
def SameDecoderConfig (s t : State) : Prop := t.dec.bo = s.dec.bo ∧ t.dec.wo = s.dec.wo

/-- The host's commands so far raised no error (R34, R189). -/
def State.errorFree (s : State) : Prop := s.errlog = []

/-- The machine reaches `t` from `s` in `n` steps. -/
def Reaches (n : Nat) (s t : State) : Prop := Sys2Proof.core.run n s = .next t

end Machine

end Sys2Proof
end

