-- ==== Sys2Proof/Certificates/Slice0/Obligations.lean ====
section
/-! DEFINITION. The statements about the model, from the numbered rules of spec/. -/

open Sys2Proof Sys2Proof.Machine

/-! ### Encoding -/

/-- Decoding the word of a well-formed command gives the command back, at every value of every operand (R65, R72, R73, R77,
R83). -/
def Obligations.DecodeOfEncodedCommandIsTheCommand : Prop :=
  ∀ i : Instr, i.wf = true → decodeCmd (encode i) = .ok i

/-- A legal word is the encoding of the command it decodes to, which is well formed: every legal word has exactly one meaning
and no bit of it is dropped (R77, R83, D6). -/
def Obligations.LegalWordIsTheEncodingOfItsCommand : Prop :=
  ∀ (w : CommandWord) (i : Instr), decodeCmd w = .ok i → i.wf = true ∧ encode i = w

/-- Which words are illegal, by opcode and by field (R74, R75), with the fields cut out of the word as a number. -/
def Obligations.IllegalWordsByOpcodeAndField : Prop :=
  ∀ w : CommandWord,
    let opc := w.toNat / 2 ^ 24
    let bo := w.toNat / 2 ^ 22 % 4
    let wo := w.toNat / 2 ^ 20 % 4
    let repack := w.toNat / 2 ^ 19 % 2
    let rsv := w.toNat / 2 ^ 16 % 8
    let count := w.toNat % 2 ^ 16
    let usesBo := (1 ≤ opc ∧ opc ≤ 8) ∨ opc = 0x10 ∨ (0x30 ≤ opc ∧ opc ≤ 0x32)
    let usesWo := (1 ≤ opc ∧ opc ≤ 8) ∨ opc = 0x10 ∨ opc = 0x30 ∨ opc = 0x31
    let usesCount := 0x3E ≤ opc ∧ opc ≤ 0x40
    ((∃ e, decodeCmd w = .error e) ↔
      (opc = 0 ∨ (0x0B ≤ opc ∧ opc ≤ 0x0F) ∨ opc = 0x1E ∨ opc = 0x1F ∨ (0x25 ≤ opc ∧ opc ≤ 0x2F) ∨ 0x42 ≤ opc)
        ∨ (¬usesBo ∧ bo ≠ 0) ∨ (¬usesWo ∧ opc ≠ 0x32 ∧ wo ≠ 0) ∨ (opc ≠ 0x10 ∧ repack ≠ 0) ∨ (¬usesCount ∧ count ≠ 0)
        ∨ rsv ≠ 0 ∨ (usesBo ∧ bo = 3) ∨ (usesWo ∧ wo = 3))

/-- The three words that R83 works out, and one word of each other family from its row (R91, R134, R106, R120, R141, R145,
R150, R164). -/
def Obligations.WorkedOutWordsDecodeToTheirCommands : Prop :=
  decodeCmd 0x10600000 = .ok (.bInit .big .little false) ∧ decodeCmd 0x31A00000 = .ok (.dFromRegs .little .little)
    ∧ decodeCmd 0x40000002 = .ok (.dSkip 2) ∧ decodeCmd 0x01A00000 = .ok (.xfwd8 .little .little)
    ∧ decodeCmd 0x09000000 = .ok .pack ∧ decodeCmd 0x11000000 = .ok .bAddU8 ∧ decodeCmd 0x20000000 = .ok .bEncode
    ∧ decodeCmd 0x30500000 = .ok (.dInitRaw .big .big) ∧ decodeCmd 0x32700000 = .ok (.dFromCoils .big 3)
    ∧ decodeCmd 0x33000000 = .ok .dU8 ∧ decodeCmd 0x41000000 = .ok .dReset

/-- The assembler's transactions are legal: the word of an assembled line decodes, and the payload is the line's (R80, R81). -/
def Obligations.AssembledLineIsALegalTransaction : Prop :=
  ∀ (l : AsmLine) (t : Transaction), assemble l = some t → t.din = l.din ∧ ∃ i, decodeCmd t.cmd = .ok i ∧ i.wf = true

/-! ### The step -/

/-- A step performs the host's next command: its transaction goes on the ports, the position advances, and the decoded command
runs on that state (R22, R43, R188). -/
def Obligations.StepRunsTheDecodedCommand : Prop :=
  ∀ (s : State) (t : Transaction) (rest : List Transaction) (i : Instr),
    s.pending = t :: rest → decodeCmd t.cmd = .ok i →
      step s = exec i { s with cmd := t.cmd, din := t.din, pending := rest, pos := s.pos + 1 }

/-- An illegal word raises IllegalCommand and changes nothing but the response, `errlog` and the host's progress, whatever the
state of the channels (R74, R183). -/
def Obligations.IllegalWordRaisesIllegalCommand : Prop :=
  ∀ (s : State) (t : Transaction) (rest : List Transaction) (e : IllegalWord),
    s.pending = t :: rest → decodeCmd t.cmd = .error e →
      step s = .next { s with cmd := t.cmd, din := t.din, pending := rest, pos := s.pos + 1,
                              errlog := s.errlog ++ [3], status := 3, dout := .none }

/-- While the host issues no command the block stays as it is (R20, R211; the idle step itself is the model's choice, entry 2
of the assumption log). -/
def Obligations.BlockWaitsWhileNoCommandIsPending : Prop :=
  ∀ s : State, s.pending = [] → step s = .next s

/-- Every command, successful or not, completes with a next state and advances the program position by exactly one (R22, R43). -/
def Obligations.EveryCommandAdvancesThePositionByOne : Prop :=
  ∀ (s : State) (t : Transaction) (rest : List Transaction), s.pending = t :: rest →
    ∃ s', step s = .next s' ∧ s'.pos = s.pos + 1 ∧ s'.pending = rest

/-- Each failed command appends exactly its code to `errlog` and answers DOUT NONE, each successful command appends nothing,
and STATUS 7 is never written (R33, R34, R188, R189). -/
def Obligations.EachFailedCommandAppendsExactlyItsCode : Prop :=
  ∀ s : State, s.pending ≠ [] →
    ∃ s', step s = .next s' ∧ s'.status ≠ 7 ∧
      ((s'.status = 0 ∧ s'.errlog = s.errlog) ∨
        (s'.status ≠ 0 ∧ s'.errlog = s.errlog ++ [s'.status] ∧ s'.dout = .none))

/-- Over a run `errlog` only grows, and a run that adds nothing to it answered OK throughout (R34, R189). -/
def Obligations.RunWithUnchangedErrorLogAnsweredOkThroughout : Prop :=
  ∀ (n : Nat) (s t : State), Reaches n s t →
    s.errlog <+: t.errlog ∧
      (t.errlog = s.errlog → s.status = 0 → ∀ k, k ≤ n → ∃ u, Reaches k s u ∧ u.status = 0 ∧ u.errlog = s.errlog)

/-! ### Reset and the invariant -/

/-- The reset values of R40, for the default capacities and for every other choice of them. R40 gives STATUS and DOUT a value
although nothing defines them before the first command completes (entry 6). -/
def Obligations.ResetLeavesTheValuesOfTheTable : Prop :=
  State.reset = State.resetWith Config.unbounded ∧ ∀ c : Config,
    let s := State.resetWith c
    s.enc.state = .none ∧ s.enc.bo = .native ∧ s.enc.wo = .native ∧ s.enc.repack = false ∧ s.enc.chunks = []
      ∧ s.dec.state = .none ∧ s.dec.bo = .native ∧ s.dec.wo = .native ∧ s.dec.buf = [] ∧ s.dec.cur = 0
      ∧ s.errlog = [] ∧ s.status = 0 ∧ s.dout = .none

/-- The invariant holds after reset, for every choice of capacities. -/
def Obligations.ResetStateSatisfiesInv : Prop := ∀ c : Config, (State.resetWith c).Inv

/-- Every step keeps the invariant: the cursor stays in the buffer (R29), the stores stay within their capacities (R57),
STATUS is never 7 and an error leaves no result and is logged (R33, R34). -/
def Obligations.EveryStepKeepsInv : Prop := ∀ s s' : State, s.Inv → step s = .next s' → s'.Inv

/-! ### Rules about the whole machine -/

/-- The encoder configuration is written only by a successful B_INIT (R26). -/
def Obligations.EncoderConfigurationIsWrittenOnlyBySuccessfulBInit : Prop :=
  ∀ (i : Instr) (s t : State), exec i s = .next t → ¬SameEncoderConfig s t →
    t.status = 0 ∧ ∃ bo wo repack, i = .bInit bo wo repack ∧ t.enc.bo = bo ∧ t.enc.wo = wo ∧ t.enc.repack = repack

/-- The decoder's orders and buffer change only at a successful construction (R28). -/
def Obligations.DecoderOrdersAndBufferChangeOnlyAtConstruction : Prop :=
  ∀ (i : Instr) (s t : State), exec i s = .next t → ¬(SameDecoderConfig s t ∧ SameDecoderBytes s t) →
    t.status = 0 ∧ i.kind = .decoderConstruct

/-- Between two constructors the cursor moves forward by exactly the bytes taken, or to 0 by D_RESET, and a failed command
does not move it (R30, R165). -/
def Obligations.CursorMovesByTheBytesTakenOrRewinds : Prop :=
  ∀ (i : Instr) (s t : State), exec i s = .next t → i.kind ≠ .decoderConstruct → t.dec.cur ≠ s.dec.cur →
    t.status = 0 ∧ ((∃ n, i.kind = .decoderTake n ∧ t.dec.cur = s.dec.cur + n ∧ t.dec.cur ≤ t.dec.buf.length)
      ∨ (i = .dReset ∧ t.dec.cur = 0))

/-- On an aborted session every decoder command but a constructor answers SessionAborted and changes nothing, and only a new
construction leaves ABORTED (R31, R185). -/
def Obligations.AbortedSessionAnswersSessionAborted : Prop :=
  (∀ (i : Instr) (s : State), i.kind.needsDecoder = true → s.dec.state = .aborted →
      exec i s = .next { s with errlog := s.errlog ++ [5], status := 5, dout := .none })
    ∧ ∀ (i : Instr) (s t : State), exec i s = .next t → s.dec.state = .aborted → t.dec ≠ s.dec →
        i.kind = .decoderConstruct ∧ t.status = 0 ∧ t.dec.state = .ready

/-- Before construction every command of a channel but a constructor answers NotConstructed and changes nothing (R100, R146,
R184). -/
def Obligations.UnconstructedChannelAnswersNotConstructed : Prop :=
  ∀ (i : Instr) (s : State),
    (i.kind.needsEncoder = true ∧ s.enc.state = .none) ∨ (i.kind.needsDecoder = true ∧ s.dec.state = .none) →
      exec i s = .next { s with errlog := s.errlog ++ [4], status := 4, dout := .none }

/-- The stateless commands write no channel state, can raise only InvalidInput, and answer from the command and DIN alone
(R44, R187). -/
def Obligations.StatelessCommandsDependOnDinAlone : Prop :=
  ∀ (i : Instr), i.kind = .stateless →
    (∀ s : State, ∃ t, exec i s = .next t ∧ t.enc = s.enc ∧ t.dec = s.dec ∧ KeepsInputs s t ∧ (t.status = 0 ∨ t.status = 1))
      ∧ ∀ s₁ s₂ t₁ t₂ : State, s₁.din = s₂.din → exec i s₁ = .next t₁ → exec i s₂ = .next t₂ →
          t₁.status = t₂.status ∧ t₁.dout = t₂.dout

/-- A failed command changes the response and `errlog` only, apart from the abort of a failed decoder construction or of a
read past the end (R15, R54). -/
def Obligations.FailedCommandChangesOnlyTheResponseAndTheAbort : Prop :=
  ∀ (i : Instr) (s t : State), exec i s = .next t → t.status ≠ 0 →
    t = { s with dec := { s.dec with state := t.dec.state }, errlog := s.errlog ++ [t.status], status := t.status,
                 dout := .none }
      ∧ (t.dec.state = s.dec.state ∨
          (t.dec.state = .aborted ∧ (i.kind = .decoderConstruct ∨ (t.status = 2 ∧ ∃ n, i.kind = .decoderTake n))))

/-- The channel check comes before the operand check, the operand check before the length check, and the length check before
the capacity check; an illegal word comes before all of them (R190). -/
def Obligations.FirstErrorInPriorityOrderIsReported : Prop :=
  (∀ (w : CommandWord) (s : State) (e : IllegalWord), decodeCmd w = .error e → ∃ t, perform w s = .next t ∧ t.status = 3)
    ∧ ∀ (i : Instr) (s : State), ∃ t, exec i s = .next t ∧
      (if (i.kind.needsEncoder = true ∧ s.enc.state = .none) ∨ (i.kind.needsDecoder = true ∧ s.dec.state = .none) then
        t.status = 4
      else if i.kind.needsDecoder = true ∧ s.dec.state = .aborted then t.status = 5
      else if s.din.hasForm i.operandForm = false then t.status = 1
      else if i.kind.needsDecoder = true ∧ i ≠ .dReset ∧ s.dec.buf.length < s.dec.cur + i.kind.taken then t.status = 2
      else t.status = 0 ∨
        (t.status = 6 ∧ ((s.cfg.encCap ≠ none ∧ (i.kind = .encoderConstruct ∨ i.kind = .encoderAdd)) ∨
          (s.cfg.decCap ≠ none ∧ i.kind = .decoderConstruct))))

/-- A DIN payload that the command does not accept raises InvalidInput; it aborts the decoder channel for a decoder
constructor and changes no state for every other command (R78, R181). -/
def Obligations.RejectedOperandRaisesInvalidInput : Prop :=
  ∀ (i : Instr) (s : State), s.din.hasForm i.operandForm = false →
    (i.kind.needsEncoder = true → s.enc.state = .ready) → (i.kind.needsDecoder = true → s.dec.state = .ready) →
      exec i s = .next { s with
        dec := if i.kind = .decoderConstruct then { s.dec with state := .aborted } else s.dec
        errlog := s.errlog ++ [1], status := 1, dout := .none }

/-- A read past the end of the buffer aborts the session and leaves the cursor where it was (R147, R182). -/
def Obligations.ReadPastTheEndRaisesTruncatedBuffer : Prop :=
  ∀ (i : Instr) (n : Nat) (s : State), i.kind = .decoderTake n → s.dec.state = .ready → s.din = .none →
    s.dec.buf.length < s.dec.cur + n →
      exec i s = .next { s with dec := { s.dec with state := .aborted }, errlog := s.errlog ++ [2], status := 2, dout := .none }

/-- A store that would exceed its capacity raises CapacityExceeded: the encoder channel keeps its state, a decoder
construction aborts its channel (R46, R105, R140, R186). -/
def Obligations.OverfullStoreRaisesCapacityExceeded : Prop :=
  (∀ c ∈ scalarAdds, ∀ (s : State) (p : BitVec c.2.bits) (cap : Nat), s.enc.state = .ready → s.din = .scalar c.2 p →
      s.cfg.encCap = some cap → cap < s.enc.flat.length + c.2.bytes →
        exec c.1 s = .next { s with errlog := s.errlog ++ [6], status := 6, dout := .none })
    ∧ (∀ (s : State) (x : List Byte) (cap : Nat), s.enc.state = .ready → s.din = .bytes x →
      s.cfg.encCap = some cap → cap < s.enc.flat.length + x.length →
        exec .bAddStr s = .next { s with errlog := s.errlog ++ [6], status := 6, dout := .none })
    ∧ (∀ (s : State) (b : List Bool) (cap : Nat), s.enc.state = .ready → s.din = .bits b →
      s.cfg.encCap = some cap → cap < s.enc.flat.length + (b.length + 7) / 8 →
        exec .bAddBits s = .next { s with errlog := s.errlog ++ [6], status := 6, dout := .none })
    ∧ (∀ (s : State) (bo wo : Endian) (repack : Bool) (seed : List Byte) (cap : Nat), s.din = .bytes seed →
      s.cfg.encCap = some cap → cap < seed.length →
        exec (.bInit bo wo repack) s = .next { s with errlog := s.errlog ++ [6], status := 6, dout := .none })
    ∧ (∀ (s : State) (bo wo : Endian) (buf : List Byte) (cap : Nat), s.din = .bytes buf →
      s.cfg.decCap = some cap → cap < buf.length →
        exec (.dInitRaw bo wo) s = .next { s with
          dec := { s.dec with state := .aborted }, errlog := s.errlog ++ [6], status := 6, dout := .none })
    ∧ (∀ (s : State) (bo wo : Endian) (r : List Register) (cap : Nat), s.din = .regs r →
      s.cfg.decCap = some cap → cap < 2 * r.length →
        exec (.dFromRegs bo wo) s = .next { s with
          dec := { s.dec with state := .aborted }, errlog := s.errlog ++ [6], status := 6, dout := .none })
    ∧ (∀ (s : State) (bo : Endian) (wo : BitVec 2) (c : List Bool) (cap : Nat), s.din = .bits c →
      s.cfg.decCap = some cap → cap < (c.length + 7) / 8 →
        exec (.dFromCoils bo wo) s = .next { s with
          dec := { s.dec with state := .aborted }, errlog := s.errlog ++ [6], status := 6, dout := .none })

/-- Every successful command answers a DOUT of the form that the table of R79 gives it. -/
def Obligations.SuccessfulCommandAnswersItsResultForm : Prop :=
  ∀ (i : Instr) (s t : State), exec i s = .next t → t.status = 0 → t.dout.hasForm i.resultForm = true

/-! ### What the commands do: the stateless commands -/

/-- XFWD8 to XFWD64 complete on a byte sequence of their width with its transform (R91 to R94). -/
def Obligations.ForwardTransformCommandsAnswerTheTransform : Prop :=
  ∀ (s : State) (bo wo : Endian) (x : List Byte), s.din = .bytes x →
    (x.length = 1 → exec (.xfwd8 bo wo) s = .next { s with status := 0, dout := .bytes x })
      ∧ (x.length = 2 → exec (.xfwd16 bo wo) s = .next { s with status := 0, dout := .bytes (xform .w16 bo wo x) })
      ∧ (x.length = 4 → exec (.xfwd32 bo wo) s = .next { s with status := 0, dout := .bytes (xform .w32 bo wo x) })
      ∧ (x.length = 8 → exec (.xfwd64 bo wo) s = .next { s with status := 0, dout := .bytes (xform .w64 bo wo x) })

/-- XINV8 to XINV64 complete on every byte sequence of their width with the bytes whose transform it is (R95 to R98, R99). -/
def Obligations.InverseTransformCommandsUndoTheTransform : Prop :=
  ∀ (s : State) (bo wo : Endian) (y : List Byte), s.din = .bytes y →
    (y.length = 1 → ∃ x, x.length = 1 ∧ xform .w8 bo wo x = y
        ∧ exec (.xinv8 bo wo) s = .next { s with status := 0, dout := .bytes x })
      ∧ (y.length = 2 → ∃ x, x.length = 2 ∧ xform .w16 bo wo x = y
        ∧ exec (.xinv16 bo wo) s = .next { s with status := 0, dout := .bytes x })
      ∧ (y.length = 4 → ∃ x, x.length = 4 ∧ xform .w32 bo wo x = y
        ∧ exec (.xinv32 bo wo) s = .next { s with status := 0, dout := .bytes x })
      ∧ (y.length = 8 → ∃ x, x.length = 8 ∧ xform .w64 bo wo x = y
        ∧ exec (.xinv64 bo wo) s = .next { s with status := 0, dout := .bytes x })

/-- PACK and UNPACK complete on every sequence of their kind (R134, R135). -/
def Obligations.PackAndUnpackAnswerTheCodec : Prop :=
  (∀ (s : State) (b : List Bool), s.din = .bits b → exec .pack s = .next { s with status := 0, dout := .bytes (pack b) })
    ∧ ∀ (s : State) (d : List Byte), s.din = .bytes d →
        exec .unpack s = .next { s with status := 0, dout := .bits (unpack d) }

/-! ### What the commands do: the encoder channel -/

/-- B_INIT opens a session with the word's orders and flag, empty or holding the seed, whatever the channel held before
(R105). -/
def Obligations.BInitOpensAnEncoderSession : Prop :=
  ∀ (s : State) (bo wo : Endian) (repack : Bool),
    (s.din = .none →
        exec (.bInit bo wo repack) s = .next { s with
          enc := { state := .ready, bo := bo, wo := wo, repack := repack, chunks := [] }, status := 0, dout := .none })
      ∧ ∀ seed : List Byte, s.din = .bytes seed → WithinCapacity s.cfg.encCap seed.length →
        exec (.bInit bo wo repack) s = .next { s with
          enc := { state := .ready, bo := bo, wo := wo, repack := repack, chunks := [seed] }, status := 0, dout := .none }

/-- Every scalar add appends one chunk, the transform of the canonical encoding of its operand under the channel's orders
(R104, R106 to R116). -/
def Obligations.ScalarAddsAppendTheTransformedEncoding : Prop :=
  ∀ c ∈ scalarAdds, ∀ (s : State) (p : BitVec c.2.bits), s.enc.state = .ready → s.din = .scalar c.2 p →
    WithinCapacity s.cfg.encCap (s.enc.flat.length + c.2.bytes) →
      exec c.1 s = .next { s with
        enc := { s.enc with chunks := s.enc.chunks ++ [xform c.2 s.enc.bo s.enc.wo (beBytes c.2.bytes p.toNat)] }
        status := 0, dout := .none }

/-- B_ADD_STR appends the bytes as they are and B_ADD_BITS appends the packed bits, under every order (R117, R118). -/
def Obligations.StringAndBitAddsAppendTheirBytes : Prop :=
  (∀ (s : State) (x : List Byte), s.enc.state = .ready → s.din = .bytes x →
      WithinCapacity s.cfg.encCap (s.enc.flat.length + x.length) →
        exec .bAddStr s = .next { s with
          enc := { s.enc with chunks := s.enc.chunks ++ [x] }, status := 0, dout := .none })
    ∧ ∀ (s : State) (b : List Bool), s.enc.state = .ready → s.din = .bits b →
      WithinCapacity s.cfg.encCap (s.enc.flat.length + (b.length + 7) / 8) →
        exec .bAddBits s = .next { s with
          enc := { s.enc with chunks := s.enc.chunks ++ [pack b] }, status := 0, dout := .none }

/-- The four conversions answer the accumulator as bytes, pairs, registers and coils, and change nothing else (R120, R122,
R124, R126). -/
def Obligations.ConversionsAnswerTheAccumulator : Prop :=
  ∀ s : State, s.enc.state = .ready → s.din = .none →
    let flat := s.enc.chunks.flatten
    let registers := toRegs s.enc.repack s.enc.bo (build flat)
    exec .bEncode s = .next { s with status := 0, dout := .bytes flat }
      ∧ exec .bBuild s = .next { s with status := 0, dout := .pairs (build flat) }
      ∧ exec .bToRegs s = .next { s with status := 0, dout := .regs registers }
      ∧ exec .bToCoils s = .next { s with status := 0, dout := .bits (toCoils registers) }

/-- B_RESET empties the accumulator and keeps the session and its configuration (R127). -/
def Obligations.BResetEmptiesTheAccumulator : Prop :=
  ∀ s : State, s.enc.state = .ready → s.din = .none →
    exec .bReset s = .next { s with enc := { s.enc with chunks := [] }, status := 0, dout := .none }

/-! ### What the commands do: the decoder channel -/

/-- The three constructors open a session at cursor 0 over the raw bytes, the registers' bytes or the coils' bytes; coils give
wordOrder BIG whatever the WO field holds (R140, R141, R143, R145). -/
def Obligations.DecoderConstructorsOpenASession : Prop :=
  ∀ (s : State) (bo wo : Endian),
    (∀ buf : List Byte, s.din = .bytes buf → WithinCapacity s.cfg.decCap buf.length →
        exec (.dInitRaw bo wo) s = .next { s with
          dec := { state := .ready, bo := bo, wo := wo, buf := buf, cur := 0 }, status := 0, dout := .none })
      ∧ (∀ r : List Register, s.din = .regs r → WithinCapacity s.cfg.decCap (2 * r.length) →
        exec (.dFromRegs bo wo) s = .next { s with
          dec := { state := .ready, bo := bo, wo := wo, buf := regsToBytes r, cur := 0 }, status := 0, dout := .none })
      ∧ ∀ (c : List Bool) (ignored : BitVec 2), s.din = .bits c → WithinCapacity s.cfg.decCap ((c.length + 7) / 8) →
        exec (.dFromCoils bo ignored) s = .next { s with
          dec := { state := .ready, bo := bo, wo := .big, buf := coilsToBytes c, cur := 0 }, status := 0, dout := .none }

/-- Every typed decode answers the pattern of the next W/8 bytes, the big-endian value of their inverse transform, and moves
the cursor behind them (R147 to R160). -/
def Obligations.TypedDecodesAnswerTheValueAtTheCursor : Prop :=
  ∀ c ∈ typedDecodes, ∀ s : State, s.dec.state = .ready → s.din = .none → s.dec.cur + c.2.bytes ≤ s.dec.buf.length →
    exec c.1 s = .next { s with
      dec := { s.dec with cur := s.dec.cur + c.2.bytes }, status := 0
      dout := .scalar c.2 (BitVec.ofNat c.2.bits
        (beValue (xinv c.2 s.dec.bo s.dec.wo ((s.dec.buf.drop s.dec.cur).take c.2.bytes)))) }

/-- D_BITS, D_STR and D_SKIP take COUNT bytes, zero included, and answer their bits, the bytes themselves, or nothing (R161 to
R163). -/
def Obligations.CountedReadsTakeCountBytes : Prop :=
  ∀ (s : State) (count : Nat), s.dec.state = .ready → s.din = .none → s.dec.cur + count ≤ s.dec.buf.length →
    let taken := (s.dec.buf.drop s.dec.cur).take count
    let after := { s with dec := { s.dec with cur := s.dec.cur + count }, status := 0 }
    exec (.dBits count) s = .next { after with dout := .bits (unpack taken) }
      ∧ exec (.dStr count) s = .next { after with dout := .bytes taken }
      ∧ exec (.dSkip count) s = .next { after with dout := .none }

/-- D_RESET rewinds the cursor and keeps the session, its orders and its buffer (R164). -/
def Obligations.DResetRewindsTheCursor : Prop :=
  ∀ s : State, s.dec.state = .ready → s.din = .none →
    exec .dReset s = .next { s with dec := { s.dec with cur := 0 }, status := 0, dout := .none }

/-- Two reads or skips in a row give together what one of the summed count gives (R162, R163). -/
def Obligations.SuccessiveReadsJoin : Prop :=
  ∀ (s : State) (a b : Nat), s.dec.state = .ready → s.din = .none → s.dec.cur + (a + b) ≤ s.dec.buf.length →
    ∃ s₁ s₂ s₃ : State, ∃ x y : List Byte,
      exec (.dStr a) s = .next s₁ ∧ exec (.dStr b) s₁ = .next s₂ ∧ exec (.dStr (a + b)) s = .next s₃
        ∧ s₁.dout = .bytes x ∧ s₂.dout = .bytes y ∧ s₃.dout = .bytes (x ++ y) ∧ s₂.dec = s₃.dec
        ∧ ∃ u₁, exec (.dSkip a) s = .next u₁ ∧ exec (.dSkip b) u₁ = exec (.dSkip (a + b)) s

/-! ### Frames -/

/-- The adds store at the accumulator's end: a successful scalar add W/8 bytes, B_ADD_STR the operand's bytes, B_ADD_BITS one
byte for every 8 bits begun; every byte outside them reads as before, and the configuration, the session, the decoder channel
and the host's side are unchanged (R46, R53). -/
def Obligations.FrameOfTheAdds : Prop :=
  ∀ (i : Instr) (s t : State), i.kind = .encoderAdd → exec i s = .next t →
    KeepsInputs s t ∧ t.dec = s.dec ∧ SameEncoderConfig s t ∧ t.enc.state = s.enc.state
      ∧ (t.status ≠ 0 → t.enc = s.enc)
      ∧ ∀ n : Nat,
          ((∃ w p, (i, w) ∈ scalarAdds ∧ s.din = .scalar w p ∧ n = w.bytes)
            ∨ (i = .bAddStr ∧ ∃ x, s.din = .bytes x ∧ n = x.length)
            ∨ (i = .bAddBits ∧ ∃ b, s.din = .bits b ∧ n = (b.length + 7) / 8)) →
          t.status = 0 →
            t.enc.flat.length = s.enc.flat.length + n
              ∧ ∀ a, ¬(s.enc.flat.length ≤ a ∧ a < s.enc.flat.length + n) → t.encoderByte a = s.encoderByte a

/-- The commands that store nothing, which are the stateless ones, the conversions, the reads and D_RESET, leave every byte of
both stores and all configuration as they were; only a read and D_RESET touch the decoder's cursor and state (R55). -/
def Obligations.FrameOfTheCommandsThatStoreNothing : Prop :=
  ∀ (i : Instr) (s t : State), exec i s = .next t →
    (i.kind = .stateless ∨ i.kind = .encoderRead ∨ i.kind.needsDecoder = true) →
      KeepsInputs s t ∧ t.enc = s.enc ∧ SameEncoderBytes s t ∧ SameDecoderBytes s t ∧ SameDecoderConfig s t
        ∧ (i.kind.needsDecoder = false → t.dec = s.dec)

/-- B_INIT and B_RESET leave the decoder channel, and the decoder constructors leave the encoder channel, as they were; a
successful B_INIT leaves exactly the seed's bytes in the accumulator and a successful B_RESET none (R105, R127, R210). -/
def Obligations.FrameOfTheConstructorsAndBReset : Prop :=
  ∀ (i : Instr) (s t : State), exec i s = .next t →
    ((i.kind = .encoderConstruct ∨ i.kind = .encoderClear) →
        KeepsInputs s t ∧ t.dec = s.dec
          ∧ (t.status = 0 → ∀ a, t.encoderByte a =
              if i.kind = .encoderConstruct then ((s.din.bytesOf).getD [])[a]? else none)
          ∧ (i.kind = .encoderClear → SameEncoderConfig s t))
      ∧ (i.kind = .decoderConstruct → KeepsInputs s t ∧ t.enc = s.enc ∧ SameEncoderBytes s t)

/-! ### The datapaths -/

/-- `BE_n` puts the most-significant byte first, `BEval` is the weighted sum of the bytes, and each is the inverse of the
other (R10). -/
def Obligations.CanonicalEncodingIsBigEndianAndInvertible : Prop :=
  (∀ n v i : Nat, i < n → (beBytes n v)[i]? = some (BitVec.ofNat 8 (v / 2 ^ (8 * (n - 1 - i)))))
    ∧ (∀ x : List Byte,
        beValue x = ∑ i ∈ Finset.range x.length, ((x[i]?).getD 0).toNat * 256 ^ (x.length - 1 - i))
    ∧ (∀ n v : Nat, v < 256 ^ n → (beBytes n v).length = n ∧ beValue (beBytes n v) = v)
    ∧ ∀ x : List Byte, beBytes x.length (beValue x) = x

/-- The transform: width 8 returns its input, and at every other width output byte j comes from the input byte that the
formula by position names (R87). -/
def Obligations.TransformMovesBytesByTheFormula : Prop :=
  ∀ (w : Width) (bo wo : Endian) (x : List Byte), x.length = w.bytes →
    (xform w bo wo x).length = w.bytes ∧ (w = .w8 → xform w bo wo x = x) ∧
      ∀ j : Nat, w ≠ .w8 → j < w.bytes →
        let n := w.bytes / 2
        let k := if wo = .little then n - 1 - j / 2 else j / 2
        let b := if bo = .little then 1 - j % 2 else j % 2
        (xform w bo wo x)[j]? = x[2 * k + b]?

/-- Width 8 bypasses the transform, width 16 ignores wordOrder, and without LITTLE every width passes through (R88; the laws
that the spec derives as R89 and R90). -/
def Obligations.TransformSpecialCases : Prop :=
  (∀ (bo wo : Endian) (b : Byte), xform .w8 bo wo [b] = [b])
    ∧ (∀ (bo wo : Endian) (x : List Byte), x.length = 2 →
        xform .w16 bo wo x = xform .w16 bo .big x ∧ xform .w16 bo wo x = if bo = .little then x.reverse else x)
    ∧ ∀ (w : Width) (bo wo : Endian) (x : List Byte), x.length = w.bytes → bo ≠ .little → wo ≠ .little → xform w bo wo x = x

/-- The transform is its own inverse under the same orders, the inverse is the same function, and the byte swap and the unit
reversal commute (the law that the spec derives as R99). -/
def Obligations.TransformIsItsOwnInverse : Prop :=
  (∀ (w : Width) (bo wo : Endian) (x : List Byte), x.length = w.bytes →
      xinv w bo wo x = xform w bo wo x ∧ xform w bo wo (xform w bo wo x) = x)
    ∧ ∀ (bo wo : Endian) (u : List (List Byte)), orderUnits wo (orderBytes bo u) = orderBytes bo (orderUnits wo u)

/-- The encodings of R101 and R102 and the decodings of R148 are the transform too, so every scalar encoding and decoding goes
through it; `p` is any pattern of the width (R101, R102, R103, R148, R149). -/
def Obligations.EveryScalarEncodingIsTheTransform : Prop :=
  (∀ (w : Width) (bo wo : Endian) (p : BitVec w.bits),
      encodeScalar w bo wo p.toNat = xform w bo wo (beBytes w.bytes p.toNat))
    ∧ ∀ (w : Width) (bo wo : Endian) (x : List Byte), x.length = w.bytes →
        decodeScalar w bo wo x = beValue (xform w bo wo x)

/-- Packing bit by bit: ⌈n/8⌉ bytes, and bit i of byte j is the boolean 8j+i, or 0 past the end (R130, R131). -/
def Obligations.PackPutsBooleansLsbFirstWithZeroPadding : Prop :=
  ∀ b : List Bool, (pack b).length = (b.length + 7) / 8 ∧
    ∀ j i : Nat, j < (b.length + 7) / 8 → i < 8 → ∃ x, (pack b)[j]? = some x ∧ x.getLsbD i = (b[8 * j + i]?).getD false

/-- Unpacking bit by bit: 8 booleans for every byte, bit 0 first (R132, R133). -/
def Obligations.UnpackListsEightBitsOfEveryByte : Prop :=
  ∀ d : List Byte, (unpack d).length = 8 * d.length ∧
    ∀ (j i : Nat) (x : Byte), d[j]? = some x → i < 8 → (unpack d)[8 * j + i]? = some (x.getLsbD i)

/-- Unpacking what was packed gives the booleans back, then only `false` up to a multiple of 8; packing what was unpacked
gives the bytes back (the law that the spec derives as R137). -/
def Obligations.PackAndUnpackRoundTrip : Prop :=
  (∀ b : List Bool, (unpack (pack b)).length = b.length + (8 - b.length % 8) % 8
      ∧ (unpack (pack b)).take b.length = b ∧ ∀ x ∈ (unpack (pack b)).drop b.length, x = false)
    ∧ ∀ d : List Byte, pack (unpack d) = d

/-- `build` pads an odd length by one zero byte and pairs the bytes, and the pad is not stored (R121; the evenness law that
the spec derives as R129). -/
def Obligations.BuildPairsTheEvenPaddedBytes : Prop :=
  (∀ e : List Byte,
    2 * (build e).length = e.length + e.length % 2 ∧
      ∀ i : Nat, i < (build e).length →
        ∃ a b, (build e)[i]? = some (a, b) ∧ e[2 * i]? = some a ∧ b = (e[2 * i + 1]?).getD 0)
    ∧ ∀ s t : State, exec .bBuild s = .next t → t.enc.chunks = s.enc.chunks

/-- A pair is read big-endian, or low byte first under repack with LITTLE, and a register expands to its 16 bits from bit 15
down (R123, R125). -/
def Obligations.RegistersAndCoilsOfPairs : Prop :=
  (∀ (repack : Bool) (bo : Endian) (q : List (Byte × Byte)), (toRegs repack bo q).length = q.length ∧
      ∀ (i : Nat) (a b : Byte), q[i]? = some (a, b) →
        ∃ r, (toRegs repack bo q)[i]? = some r
          ∧ r.toNat = if repack = true ∧ bo = .little then b.toNat * 256 + a.toNat else a.toNat * 256 + b.toNat)
    ∧ ∀ r : List Register, (toCoils r).length = 16 * r.length ∧
        ∀ (j i : Nat) (x : Register), r[j]? = some x → i < 16 → (toCoils r)[16 * j + i]? = some (x.getLsbD (15 - i))

/-- Coils become bytes in groups of 8 from the end of the sequence: the first coil of a group is bit 7, and the padding coils
lead the first group (R144). -/
def Obligations.CoilsBecomeBytesMsbFirstWithLeadingPadding : Prop :=
  ∀ coils : List Bool,
    let p := (8 - coils.length % 8) % 8
    (coilsToBytes coils).length = (coils.length + 7) / 8 ∧
      ∀ j k : Nat, j < (coils.length + 7) / 8 → k < 8 →
        ∃ x, (coilsToBytes coils)[j]? = some x
          ∧ x.getLsbD (7 - k) = if 8 * j + k < p then false else (coils[8 * j + k - p]?).getD false

/-- The signed view takes every number of a width's signed range back from its pattern, and every pattern back from its number
(R11). -/
def Obligations.SignedViewAndPatternAreInverse : Prop :=
  (∀ (n : Nat) (x : Int), 0 < n → -(2 ^ (n - 1)) ≤ x → x < 2 ^ (n - 1) → signedView (signedPattern n x) = x)
    ∧ ∀ (n : Nat) (p : BitVec n), signedPattern n (signedView p) = p

/-! ### Laws of the channels together -/

/-- The scalar round trip (the law that the spec derives as R166): B_INIT without repack, an add, B_TO_REGS, D_FROM_REGS with
the same orders and the decode of the same kind answer the pattern that was added, from every state whose capacities hold the
value. With repack and LITTLE it does not hold: 0x0102 comes back as 0x0201. -/
def Obligations.ScalarRoundTripThroughRegisters : Prop :=
  (∀ m ∈ matchingScalars, ∀ (s : State) (bo wo : Endian) (p : BitVec m.2.2.bits),
    WithinCapacity s.cfg.encCap m.2.2.bytes → WithinCapacity s.cfg.decCap (max 2 m.2.2.bytes) →
      ∃ (s₁ s₂ s₃ s₄ s₅ : State) (r : List Register),
        exec (.bInit bo wo false) { s with din := .none } = .next s₁
          ∧ exec m.1 { s₁ with din := .scalar m.2.2 p } = .next s₂
          ∧ exec .bToRegs { s₂ with din := .none } = .next s₃ ∧ s₃.dout = .regs r
          ∧ exec (.dFromRegs bo wo) { s₃ with din := .regs r } = .next s₄
          ∧ exec m.2.1 { s₄ with din := .none } = .next s₅ ∧ s₅.status = 0 ∧ s₅.dout = .scalar m.2.2 p)
    ∧ ∀ (s : State) (wo : Endian), WithinCapacity s.cfg.encCap 2 → WithinCapacity s.cfg.decCap 2 →
      ∃ (s₁ s₂ s₃ s₄ s₅ : State) (r : List Register),
        exec (.bInit .little wo true) { s with din := .none } = .next s₁
          ∧ exec .bAddU16 { s₁ with din := .scalar .w16 (0x0102 : BitVec 16) } = .next s₂
          ∧ exec .bToRegs { s₂ with din := .none } = .next s₃ ∧ s₃.dout = .regs r
          ∧ exec (.dFromRegs .little wo) { s₃ with din := .regs r } = .next s₄
          ∧ exec .dU16 { s₄ with din := .none } = .next s₅ ∧ s₅.status = 0 ∧ s₅.dout = .scalar .w16 (0x0201 : BitVec 16)

/-- The coil round trip (the law that the spec derives as R167): the coils of a register sequence give the bytes of the
registers, so both decoder constructors load the same buffer from one Builder's output. -/
def Obligations.CoilRoundTripThroughTheDecoder : Prop :=
  (∀ r : List Register, coilsToBytes (toCoils r) = regsToBytes r)
    ∧ ∀ (s : State) (bo wo : Endian) (ignored : BitVec 2),
        ∃ t u : State,
          exec (.dFromCoils bo ignored) { s with din := .bits (toCoils s.enc.registers) } = .next t
            ∧ exec (.dFromRegs bo wo) { s with din := .regs s.enc.registers } = .next u
            ∧ t.status = u.status ∧ t.dec.state = u.dec.state ∧ t.dec.buf = u.dec.buf ∧ t.dec.cur = u.dec.cur

/-- (The law that the spec derives as R168.) A typed decode's response depends only on the bytes at the cursor and the two
orders: not on the rest of the state, nor on which of the U, I and F commands of the width it is. -/
def Obligations.TypedDecodeDependsOnlyOnItsSliceAndOrders : Prop :=
  ∀ c₁ ∈ typedDecodes, ∀ c₂ ∈ typedDecodes, c₁.2 = c₂.2 →
    ∀ s₁ s₂ t₁ t₂ : State, s₁.dec.state = .ready → s₂.dec.state = .ready → s₁.din = .none → s₂.din = .none →
      s₁.dec.bo = s₂.dec.bo → s₁.dec.wo = s₂.dec.wo →
      (s₁.dec.buf.drop s₁.dec.cur).take c₁.2.bytes = (s₂.dec.buf.drop s₂.dec.cur).take c₁.2.bytes →
      exec c₁.1 s₁ = .next t₁ → exec c₂.1 s₂ = .next t₂ → t₁.status = t₂.status ∧ t₁.dout = t₂.dout

/-- Chunk boundaries are hidden: two states that differ only in them answer every command alike and go on differing only in
them (the law that the spec derives as R38). -/
def Obligations.ChunkBoundariesAreNeverObserved : Prop :=
  ∀ (i : Instr) (s₁ s₂ t₁ t₂ : State),
    s₁.enc.flat = s₂.enc.flat → s₂ = { s₁ with enc := { s₁.enc with chunks := s₂.enc.chunks } } →
      exec i s₁ = .next t₁ → exec i s₂ = .next t₂ →
        t₁.enc.flat = t₂.enc.flat ∧ t₂ = { t₁ with enc := { t₁.enc with chunks := t₂.enc.chunks } }

/-- Separate blocks share nothing: two of them may step in either order with the same result, and a step of one leaves every
other as it was (R199; the law that the spec derives as R59). -/
def Obligations.SeparateInstancesCommute : Prop :=
  ∀ (j k : Nat) (g : List State), j ≠ k →
    ∃ g₁ g₂ g₃ : List State,
      stepGroup j g = .next g₁ ∧ stepGroup k g₁ = .next g₃ ∧ stepGroup k g = .next g₂ ∧ stepGroup j g₂ = .next g₃
        ∧ (∀ l, l ≠ j → g₁[l]? = g[l]?) ∧ (∀ l, l ≠ k → g₂[l]? = g[l]?)
end

