-- ==== Sys2Proof/Laws/State.lean ====
section
/-! SUPPORT. One lemma per field and per named update of the state, so that no later proof unfolds an update. -/

namespace Sys2Proof.Machine

variable (s : State)

/-! ### State.setChunks -/

@[simp] theorem State.setChunks_enc (ch : List (List Byte)) : (s.setChunks ch).enc = { s.enc with chunks := ch } := rfl
@[simp] theorem State.setChunks_dec (ch : List (List Byte)) : (s.setChunks ch).dec = s.dec := rfl
@[simp] theorem State.setChunks_errlog (ch : List (List Byte)) : (s.setChunks ch).errlog = s.errlog := rfl
@[simp] theorem State.setChunks_status (ch : List (List Byte)) : (s.setChunks ch).status = s.status := rfl
@[simp] theorem State.setChunks_dout (ch : List (List Byte)) : (s.setChunks ch).dout = s.dout := rfl
@[simp] theorem State.setChunks_cmd (ch : List (List Byte)) : (s.setChunks ch).cmd = s.cmd := rfl
@[simp] theorem State.setChunks_din (ch : List (List Byte)) : (s.setChunks ch).din = s.din := rfl
@[simp] theorem State.setChunks_pending (ch : List (List Byte)) : (s.setChunks ch).pending = s.pending := rfl
@[simp] theorem State.setChunks_pos (ch : List (List Byte)) : (s.setChunks ch).pos = s.pos := rfl
@[simp] theorem State.setChunks_cfg (ch : List (List Byte)) : (s.setChunks ch).cfg = s.cfg := rfl

/-! ### State.openEncoder -/

@[simp] theorem State.openEncoder_enc (bo wo : Endian) (repack : Bool) (ch : List (List Byte)) : (s.openEncoder bo wo repack ch).enc = { state := .ready, bo := bo, wo := wo, repack := repack, chunks := ch } := rfl
@[simp] theorem State.openEncoder_dec (bo wo : Endian) (repack : Bool) (ch : List (List Byte)) : (s.openEncoder bo wo repack ch).dec = s.dec := rfl
@[simp] theorem State.openEncoder_errlog (bo wo : Endian) (repack : Bool) (ch : List (List Byte)) : (s.openEncoder bo wo repack ch).errlog = s.errlog := rfl
@[simp] theorem State.openEncoder_status (bo wo : Endian) (repack : Bool) (ch : List (List Byte)) : (s.openEncoder bo wo repack ch).status = s.status := rfl
@[simp] theorem State.openEncoder_dout (bo wo : Endian) (repack : Bool) (ch : List (List Byte)) : (s.openEncoder bo wo repack ch).dout = s.dout := rfl
@[simp] theorem State.openEncoder_cmd (bo wo : Endian) (repack : Bool) (ch : List (List Byte)) : (s.openEncoder bo wo repack ch).cmd = s.cmd := rfl
@[simp] theorem State.openEncoder_din (bo wo : Endian) (repack : Bool) (ch : List (List Byte)) : (s.openEncoder bo wo repack ch).din = s.din := rfl
@[simp] theorem State.openEncoder_pending (bo wo : Endian) (repack : Bool) (ch : List (List Byte)) : (s.openEncoder bo wo repack ch).pending = s.pending := rfl
@[simp] theorem State.openEncoder_pos (bo wo : Endian) (repack : Bool) (ch : List (List Byte)) : (s.openEncoder bo wo repack ch).pos = s.pos := rfl
@[simp] theorem State.openEncoder_cfg (bo wo : Endian) (repack : Bool) (ch : List (List Byte)) : (s.openEncoder bo wo repack ch).cfg = s.cfg := rfl

/-! ### State.openDecoder -/

@[simp] theorem State.openDecoder_enc (bo wo : Endian) (buf : List Byte) : (s.openDecoder bo wo buf).enc = s.enc := rfl
@[simp] theorem State.openDecoder_dec (bo wo : Endian) (buf : List Byte) : (s.openDecoder bo wo buf).dec = { state := .ready, bo := bo, wo := wo, buf := buf, cur := 0 } := rfl
@[simp] theorem State.openDecoder_errlog (bo wo : Endian) (buf : List Byte) : (s.openDecoder bo wo buf).errlog = s.errlog := rfl
@[simp] theorem State.openDecoder_status (bo wo : Endian) (buf : List Byte) : (s.openDecoder bo wo buf).status = s.status := rfl
@[simp] theorem State.openDecoder_dout (bo wo : Endian) (buf : List Byte) : (s.openDecoder bo wo buf).dout = s.dout := rfl
@[simp] theorem State.openDecoder_cmd (bo wo : Endian) (buf : List Byte) : (s.openDecoder bo wo buf).cmd = s.cmd := rfl
@[simp] theorem State.openDecoder_din (bo wo : Endian) (buf : List Byte) : (s.openDecoder bo wo buf).din = s.din := rfl
@[simp] theorem State.openDecoder_pending (bo wo : Endian) (buf : List Byte) : (s.openDecoder bo wo buf).pending = s.pending := rfl
@[simp] theorem State.openDecoder_pos (bo wo : Endian) (buf : List Byte) : (s.openDecoder bo wo buf).pos = s.pos := rfl
@[simp] theorem State.openDecoder_cfg (bo wo : Endian) (buf : List Byte) : (s.openDecoder bo wo buf).cfg = s.cfg := rfl

/-! ### State.abortDecoder -/

@[simp] theorem State.abortDecoder_enc : s.abortDecoder.enc = s.enc := rfl
@[simp] theorem State.abortDecoder_dec : s.abortDecoder.dec = { s.dec with state := .aborted } := rfl
@[simp] theorem State.abortDecoder_errlog : s.abortDecoder.errlog = s.errlog := rfl
@[simp] theorem State.abortDecoder_status : s.abortDecoder.status = s.status := rfl
@[simp] theorem State.abortDecoder_dout : s.abortDecoder.dout = s.dout := rfl
@[simp] theorem State.abortDecoder_cmd : s.abortDecoder.cmd = s.cmd := rfl
@[simp] theorem State.abortDecoder_din : s.abortDecoder.din = s.din := rfl
@[simp] theorem State.abortDecoder_pending : s.abortDecoder.pending = s.pending := rfl
@[simp] theorem State.abortDecoder_pos : s.abortDecoder.pos = s.pos := rfl
@[simp] theorem State.abortDecoder_cfg : s.abortDecoder.cfg = s.cfg := rfl

/-! ### State.setCursor -/

@[simp] theorem State.setCursor_enc (c : Nat) : (s.setCursor c).enc = s.enc := rfl
@[simp] theorem State.setCursor_dec (c : Nat) : (s.setCursor c).dec = { s.dec with cur := c } := rfl
@[simp] theorem State.setCursor_errlog (c : Nat) : (s.setCursor c).errlog = s.errlog := rfl
@[simp] theorem State.setCursor_status (c : Nat) : (s.setCursor c).status = s.status := rfl
@[simp] theorem State.setCursor_dout (c : Nat) : (s.setCursor c).dout = s.dout := rfl
@[simp] theorem State.setCursor_cmd (c : Nat) : (s.setCursor c).cmd = s.cmd := rfl
@[simp] theorem State.setCursor_din (c : Nat) : (s.setCursor c).din = s.din := rfl
@[simp] theorem State.setCursor_pending (c : Nat) : (s.setCursor c).pending = s.pending := rfl
@[simp] theorem State.setCursor_pos (c : Nat) : (s.setCursor c).pos = s.pos := rfl
@[simp] theorem State.setCursor_cfg (c : Nat) : (s.setCursor c).cfg = s.cfg := rfl

/-! ### State.complete -/

@[simp] theorem State.complete_enc (out : Payload) : (s.complete out).enc = s.enc := rfl
@[simp] theorem State.complete_dec (out : Payload) : (s.complete out).dec = s.dec := rfl
@[simp] theorem State.complete_errlog (out : Payload) : (s.complete out).errlog = s.errlog := rfl
@[simp] theorem State.complete_status (out : Payload) : (s.complete out).status = 0 := rfl
@[simp] theorem State.complete_dout (out : Payload) : (s.complete out).dout = out := rfl
@[simp] theorem State.complete_cmd (out : Payload) : (s.complete out).cmd = s.cmd := rfl
@[simp] theorem State.complete_din (out : Payload) : (s.complete out).din = s.din := rfl
@[simp] theorem State.complete_pending (out : Payload) : (s.complete out).pending = s.pending := rfl
@[simp] theorem State.complete_pos (out : Payload) : (s.complete out).pos = s.pos := rfl
@[simp] theorem State.complete_cfg (out : Payload) : (s.complete out).cfg = s.cfg := rfl

/-! ### State.raise -/

@[simp] theorem State.raise_enc (e : CommandError) : (s.raise e).enc = s.enc := rfl
@[simp] theorem State.raise_dec (e : CommandError) : (s.raise e).dec = s.dec := rfl
@[simp] theorem State.raise_errlog (e : CommandError) : (s.raise e).errlog = s.errlog ++ [e.code] := rfl
@[simp] theorem State.raise_status (e : CommandError) : (s.raise e).status = e.code := rfl
@[simp] theorem State.raise_dout (e : CommandError) : (s.raise e).dout = .none := rfl
@[simp] theorem State.raise_cmd (e : CommandError) : (s.raise e).cmd = s.cmd := rfl
@[simp] theorem State.raise_din (e : CommandError) : (s.raise e).din = s.din := rfl
@[simp] theorem State.raise_pending (e : CommandError) : (s.raise e).pending = s.pending := rfl
@[simp] theorem State.raise_pos (e : CommandError) : (s.raise e).pos = s.pos := rfl
@[simp] theorem State.raise_cfg (e : CommandError) : (s.raise e).cfg = s.cfg := rfl

/-! ### State.accept -/

@[simp] theorem State.accept_enc (t : Transaction) (rest : List Transaction) : (s.accept t rest).enc = s.enc := rfl
@[simp] theorem State.accept_dec (t : Transaction) (rest : List Transaction) : (s.accept t rest).dec = s.dec := rfl
@[simp] theorem State.accept_errlog (t : Transaction) (rest : List Transaction) : (s.accept t rest).errlog = s.errlog := rfl
@[simp] theorem State.accept_status (t : Transaction) (rest : List Transaction) : (s.accept t rest).status = s.status := rfl
@[simp] theorem State.accept_dout (t : Transaction) (rest : List Transaction) : (s.accept t rest).dout = s.dout := rfl
@[simp] theorem State.accept_cmd (t : Transaction) (rest : List Transaction) : (s.accept t rest).cmd = t.cmd := rfl
@[simp] theorem State.accept_din (t : Transaction) (rest : List Transaction) : (s.accept t rest).din = t.din := rfl
@[simp] theorem State.accept_pending (t : Transaction) (rest : List Transaction) : (s.accept t rest).pending = rest := rfl
@[simp] theorem State.accept_pos (t : Transaction) (rest : List Transaction) : (s.accept t rest).pos = s.pos + 1 := rfl
@[simp] theorem State.accept_cfg (t : Transaction) (rest : List Transaction) : (s.accept t rest).cfg = s.cfg := rfl

/-! ### Reading one byte -/

theorem State.encoderByte_congr {s t : State} (h : t.enc.chunks.flatten = s.enc.chunks.flatten) : SameEncoderBytes s t := by
  intro a
  simp [State.encoderByte, Encoder.flat, h]

theorem State.decoderByte_congr {s t : State} (h : t.dec.buf = s.dec.buf) : SameDecoderBytes s t := by
  intro a
  simp [State.decoderByte, h]

end Sys2Proof.Machine
end

