-- ==== Sys2Proof/Laws/Ops.lean ====
section
/-! SUPPORT. What each shared operation can answer, said once. -/

namespace Sys2Proof.Machine

/-! ### Capacities and reads of a store -/

theorem fitsCapacity_iff (cap : Option Nat) (n : Nat) : fitsCapacity cap n = true ↔ WithinCapacity cap n := by
  cases cap <;> simp [fitsCapacity, WithinCapacity]

theorem fitsCapacity_of_le {cap : Option Nat} {m n : Nat} (h : fitsCapacity cap n = true) (hmn : m ≤ n) :
    fitsCapacity cap m = true := by
  rw [fitsCapacity_iff] at *
  exact fun c hc => le_trans hmn (h c hc)

theorem fitsCapacity_zero (cap : Option Nat) : fitsCapacity cap 0 = true := by
  cases cap <;> simp [fitsCapacity]

theorem fitsCapacity_exceeded {cap : Option Nat} {c n : Nat} (hc : cap = some c) (h : c < n) :
    fitsCapacity cap n = false := by
  subst hc
  simpa [fitsCapacity] using h

theorem fitsCapacity_false {cap : Option Nat} {n : Nat} (h : fitsCapacity cap n = false) : ∃ c, cap = some c ∧ c < n := by
  cases cap with
  | none => simp [fitsCapacity] at h
  | some c => exact ⟨c, rfl, by simpa [fitsCapacity] using h⟩

theorem memRead_inside {buf : List Byte} {addr n : Nat} (h : addr + n ≤ buf.length) :
    memRead buf addr n = some ((buf.drop addr).take n) := if_pos h

theorem memRead_outside {buf : List Byte} {addr n : Nat} (h : buf.length < addr + n) : memRead buf addr n = none :=
  if_neg (by omega)

theorem memRead_cases (buf : List Byte) (addr n : Nat) :
    (buf.length < addr + n ∧ memRead buf addr n = none) ∨
      (addr + n ≤ buf.length ∧ memRead buf addr n = some ((buf.drop addr).take n)) := by
  rcases Nat.lt_or_ge buf.length (addr + n) with h | h
  · exact .inl ⟨h, memRead_outside h⟩
  · exact .inr ⟨h, memRead_inside h⟩

theorem length_slice {buf : List Byte} {addr n : Nat} (h : addr + n ≤ buf.length) :
    ((buf.drop addr).take n).length = n := by
  simp
  omega

/-! ### Responses -/

@[simp] theorem Reply.state_ok (s : State) (out : Payload) : (Reply.ok s out).state = s.complete out := rfl
@[simp] theorem Reply.state_err (s : State) (e : CommandError) : (Reply.err s e).state = s.raise e := rfl

theorem respond_eq (r : Reply) : respond r = .next r.state := rfl

theorem respond_eq_next {r : Reply} {t : State} : respond r = .next t ↔ t = r.state := by
  simp [respond, eq_comm]

theorem CommandError.code_ne_zero (e : CommandError) : e.code ≠ 0 := by cases e <;> decide
theorem CommandError.code_ne_seven (e : CommandError) : e.code ≠ 7 := by cases e <;> decide
theorem CommandError.isErrorCode_code (e : CommandError) : isErrorCode e.code = true := by cases e <;> decide

/-! ### Operand and ready checks -/

theorem expectOperand_some {α : Type} {x : Option α} {v : α} (h : x = some v) (s : State) (k : α → Reply) :
    expectOperand x s k = k v := by subst h; rfl

theorem expectOperand_none {α : Type} {x : Option α} (h : x = none) (s : State) (k : α → Reply) :
    expectOperand x s k = .err s .invalidInput := by subst h; rfl

theorem expectOperand_cases {α : Type} (x : Option α) (s : State) (k : α → Reply) :
    (x = none ∧ expectOperand x s k = .err s .invalidInput) ∨ ∃ v, x = some v ∧ expectOperand x s k = k v := by
  cases x with
  | none => exact .inl ⟨rfl, rfl⟩
  | some v => exact .inr ⟨v, rfl, rfl⟩

theorem builderReady_none {s : State} (h : s.enc.state = .none) (k : Reply) : builderReady s k = .err s .notConstructed := by
  simp [builderReady, h]

theorem builderReady_ready {s : State} (h : s.enc.state = .ready) (k : Reply) : builderReady s k = k := by
  simp [builderReady, h]

theorem builderReady_cases (s : State) (k : Reply) :
    (s.enc.state = .none ∧ builderReady s k = .err s .notConstructed) ∨ (s.enc.state = .ready ∧ builderReady s k = k) := by
  cases h : s.enc.state with
  | none => exact .inl ⟨rfl, builderReady_none h k⟩
  | ready => exact .inr ⟨rfl, builderReady_ready h k⟩

theorem decoderReady_none {s : State} (h : s.dec.state = .none) (k : Reply) : decoderReady s k = .err s .notConstructed := by
  simp [decoderReady, h]

theorem decoderReady_aborted {s : State} (h : s.dec.state = .aborted) (k : Reply) :
    decoderReady s k = .err s .sessionAborted := by
  simp [decoderReady, h]

theorem Payload.noneOf_eq_some {p : Payload} : p.noneOf = some () ↔ p = .none := by
  cases p <;> simp [Payload.noneOf]

theorem decoderReady_ready {s : State} (h : s.dec.state = .ready) (hd : s.din = .none) (k : Reply) :
    decoderReady s k = k := by
  simp [decoderReady, h, hd, Payload.noneOf, expectOperand]

theorem decoderReady_rejected {s : State} (h : s.dec.state = .ready) (hd : s.din.noneOf = none) (k : Reply) :
    decoderReady s k = .err s .invalidInput := by
  simp [decoderReady, h, hd, expectOperand]

theorem decoderReady_cases (s : State) (k : Reply) :
    (s.dec.state = .none ∧ decoderReady s k = .err s .notConstructed) ∨
      (s.dec.state = .aborted ∧ decoderReady s k = .err s .sessionAborted) ∨
      (s.dec.state = .ready ∧ s.din.noneOf = none ∧ decoderReady s k = .err s .invalidInput) ∨
      (s.dec.state = .ready ∧ s.din = .none ∧ decoderReady s k = k) := by
  cases h : s.dec.state with
  | none => exact .inl ⟨rfl, decoderReady_none h k⟩
  | aborted => exact .inr (.inl ⟨rfl, decoderReady_aborted h k⟩)
  | ready =>
    cases hd : s.din.noneOf with
    | none => exact .inr (.inr (.inl ⟨rfl, rfl, decoderReady_rejected h hd k⟩))
    | some u =>
      have hn : s.din = .none := Payload.noneOf_eq_some.mp hd
      exact .inr (.inr (.inr ⟨rfl, hn, decoderReady_ready h hn k⟩))

/-! ### Stores, sessions and reads -/

theorem appendChunk_cases (s : State) (chunk : List Byte) :
    (fitsCapacity s.cfg.encCap (s.enc.flat.length + chunk.length) = true ∧
        appendChunk s chunk = .ok (s.setChunks (s.enc.chunks ++ [chunk])) .none) ∨
      (fitsCapacity s.cfg.encCap (s.enc.flat.length + chunk.length) = false ∧
        appendChunk s chunk = .err s .capacityExceeded) := by
  unfold appendChunk
  cases h : fitsCapacity s.cfg.encCap (s.enc.flat.length + chunk.length) <;> simp

theorem constructDecoder_cases (bo wo : Endian) (s : State) (buf : List Byte) :
    (fitsCapacity s.cfg.decCap buf.length = true ∧
        constructDecoder bo wo s buf = .ok (s.openDecoder bo wo buf) .none) ∨
      (fitsCapacity s.cfg.decCap buf.length = false ∧
        constructDecoder bo wo s buf = .err s.abortDecoder .capacityExceeded) := by
  unfold constructDecoder
  cases h : fitsCapacity s.cfg.decCap buf.length <;> simp

theorem decoderFrom_cases (operand : Option (List Byte)) (bo wo : Endian) (s : State) :
    (operand = none ∧ decoderFrom operand bo wo s = .err s.abortDecoder .invalidInput) ∨
      (∃ buf, operand = some buf ∧ fitsCapacity s.cfg.decCap buf.length = true ∧
        decoderFrom operand bo wo s = .ok (s.openDecoder bo wo buf) .none) ∨
      (∃ buf, operand = some buf ∧ fitsCapacity s.cfg.decCap buf.length = false ∧
        decoderFrom operand bo wo s = .err s.abortDecoder .capacityExceeded) := by
  unfold decoderFrom
  rcases expectOperand_cases operand s.abortDecoder (fun buf => constructDecoder bo wo s buf) with ⟨h, e⟩ | ⟨buf, h, e⟩
  · exact .inl ⟨h, e⟩
  · rcases constructDecoder_cases bo wo s buf with ⟨hf, hc⟩ | ⟨hf, hc⟩
    · exact .inr (.inl ⟨buf, h, hf, e.trans hc⟩)
    · exact .inr (.inr ⟨buf, h, hf, e.trans hc⟩)

theorem constructEncoder_cases (bo wo : Endian) (repack : Bool) (s : State) :
    (s.din.seedChunks = none ∧ constructEncoder bo wo repack s = .err s .invalidInput) ∨
      (∃ ch, s.din.seedChunks = some ch ∧ fitsCapacity s.cfg.encCap ch.flatten.length = true ∧
        constructEncoder bo wo repack s = .ok (s.openEncoder bo wo repack ch) .none) ∨
      (∃ ch, s.din.seedChunks = some ch ∧ fitsCapacity s.cfg.encCap ch.flatten.length = false ∧
        constructEncoder bo wo repack s = .err s .capacityExceeded) := by
  unfold constructEncoder
  cases h : s.din.seedChunks with
  | none => exact .inl ⟨rfl, rfl⟩
  | some ch =>
    cases hf : fitsCapacity s.cfg.encCap ch.flatten.length with
    | true => exact .inr (.inl ⟨ch, rfl, hf, by simp only [expectOperand, hf, if_true]⟩)
    | false => exact .inr (.inr ⟨ch, rfl, hf, by simp only [expectOperand, hf, Bool.false_eq_true, if_false]⟩)

theorem takeBytes_cases (n : Nat) (s : State) (k : State → List Byte → Reply) :
    (s.dec.buf.length < s.dec.cur + n ∧ takeBytes n s k = .err s.abortDecoder .truncatedBuffer) ∨
      (s.dec.cur + n ≤ s.dec.buf.length ∧
        takeBytes n s k = k (s.setCursor (s.dec.cur + n)) ((s.dec.buf.drop s.dec.cur).take n)) := by
  unfold takeBytes
  rcases memRead_cases s.dec.buf s.dec.cur n with ⟨h, e⟩ | ⟨h, e⟩
  · exact .inl ⟨h, by rw [e]⟩
  · exact .inr ⟨h, by rw [e]⟩

/-- A read at the cursor that succeeds. -/
theorem decodeBytes_inside {n : Nat} {s : State} (result : List Byte → Payload) (h : s.dec.state = .ready)
    (hd : s.din = .none) (hn : s.dec.cur + n ≤ s.dec.buf.length) :
    decodeBytes n s result =
      .ok (s.setCursor (s.dec.cur + n)) (result ((s.dec.buf.drop s.dec.cur).take n)) := by
  simp [decodeBytes, decoderReady_ready h hd, takeBytes, memRead_inside hn]

theorem decodeBytes_cases (n : Nat) (s : State) (result : List Byte → Payload) :
    (s.dec.state = .none ∧ decodeBytes n s result = .err s .notConstructed) ∨
      (s.dec.state = .aborted ∧ decodeBytes n s result = .err s .sessionAborted) ∨
      (s.dec.state = .ready ∧ s.din.noneOf = none ∧ decodeBytes n s result = .err s .invalidInput) ∨
      (s.dec.state = .ready ∧ s.din = .none ∧ s.dec.buf.length < s.dec.cur + n ∧
        decodeBytes n s result = .err s.abortDecoder .truncatedBuffer) ∨
      (s.dec.state = .ready ∧ s.din = .none ∧ s.dec.cur + n ≤ s.dec.buf.length ∧
        decodeBytes n s result =
          .ok (s.setCursor (s.dec.cur + n)) (result ((s.dec.buf.drop s.dec.cur).take n))) := by
  unfold decodeBytes
  rcases decoderReady_cases s (takeBytes n s fun s' bytes => .ok s' (result bytes)) with
    ⟨h, e⟩ | ⟨h, e⟩ | ⟨h, hd, e⟩ | ⟨h, hd, e⟩
  · exact .inl ⟨h, e⟩
  · exact .inr (.inl ⟨h, e⟩)
  · exact .inr (.inr (.inl ⟨h, hd, e⟩))
  · rcases takeBytes_cases n s (fun s' bytes => .ok s' (result bytes)) with ⟨hn, e'⟩ | ⟨hn, e'⟩
    · exact .inr (.inr (.inr (.inl ⟨h, hd, hn, e.trans e'⟩)))
    · exact .inr (.inr (.inr (.inr ⟨h, hd, hn, e.trans e'⟩)))

/-! ### The host's next command -/

theorem State.nextCommand_nil {s : State} (h : s.pending = []) : s.nextCommand = none := by simp [State.nextCommand, h]

theorem State.nextCommand_cons {s : State} {t : Transaction} {rest : List Transaction} (h : s.pending = t :: rest) :
    s.nextCommand = some (t.cmd, s.accept t rest) := by simp [State.nextCommand, h]

end Sys2Proof.Machine
end

