-- ==== Sys2Proof/Laws/Exec.lean ====
section
/-! SUPPORT. Everything a command can answer, said once for all commands by their kind: later proofs about every command
cite `exec_effect` and split on its cases instead of unfolding the meanings. -/

namespace Sys2Proof.Machine

/-- What a command of a kind can give from a state, with the conditions under which it gives it. -/
inductive Effect (s : State) : CommandKind → Reply → Prop where
  /-- A stateless command answers a result. -/
  | computed (out : Payload) : Effect s .stateless (.ok s out)
  /-- A conversion answers a result. -/
  | converted (h : s.enc.state = .ready) (out : Payload) : Effect s .encoderRead (.ok s out)
  /-- B_INIT opens a session. -/
  | opened (bo wo : Endian) (repack : Bool) (ch : List (List Byte)) (hd : s.din.seedChunks = some ch)
      (hf : fitsCapacity s.cfg.encCap ch.flatten.length = true) :
      Effect s .encoderConstruct (.ok (s.openEncoder bo wo repack ch) .none)
  /-- A B_INIT seed is too long. -/
  | seedTooLong (ch : List (List Byte)) (hd : s.din.seedChunks = some ch)
      (hf : fitsCapacity s.cfg.encCap ch.flatten.length = false) :
      Effect s .encoderConstruct (.err s .capacityExceeded)
  /-- An add appends a chunk. -/
  | appended (h : s.enc.state = .ready) (chunk : List Byte)
      (hf : fitsCapacity s.cfg.encCap (s.enc.flat.length + chunk.length) = true) :
      Effect s .encoderAdd (.ok (s.setChunks (s.enc.chunks ++ [chunk])) .none)
  /-- An add's chunk does not fit. -/
  | chunkTooLong (h : s.enc.state = .ready) (chunk : List Byte)
      (hf : fitsCapacity s.cfg.encCap (s.enc.flat.length + chunk.length) = false) :
      Effect s .encoderAdd (.err s .capacityExceeded)
  /-- B_RESET empties the accumulator. -/
  | cleared (h : s.enc.state = .ready) : Effect s .encoderClear (.ok (s.setChunks []) .none)
  /-- A decoder constructor opens a session. -/
  | loaded (bo wo : Endian) (buf : List Byte) (hf : fitsCapacity s.cfg.decCap buf.length = true) :
      Effect s .decoderConstruct (.ok (s.openDecoder bo wo buf) .none)
  /-- A decoder constructor's buffer does not fit. -/
  | bufferTooLong (buf : List Byte) (hf : fitsCapacity s.cfg.decCap buf.length = false) :
      Effect s .decoderConstruct (.err s.abortDecoder .capacityExceeded)
  /-- A decoder constructor's operand is rejected. -/
  | loadRejected : Effect s .decoderConstruct (.err s.abortDecoder .invalidInput)
  /-- A read or skip takes its bytes. -/
  | taken (n : Nat) (h : s.dec.state = .ready) (hd : s.din = .none) (hn : s.dec.cur + n ≤ s.dec.buf.length) (out : Payload) :
      Effect s (.decoderTake n) (.ok (s.setCursor (s.dec.cur + n)) out)
  /-- A read or skip runs past the end. -/
  | truncated (n : Nat) (h : s.dec.state = .ready) (hd : s.din = .none) (hn : s.dec.buf.length < s.dec.cur + n) :
      Effect s (.decoderTake n) (.err s.abortDecoder .truncatedBuffer)
  /-- D_RESET rewinds. -/
  | rewound (h : s.dec.state = .ready) (hd : s.din = .none) : Effect s .decoderRewind (.ok (s.setCursor 0) .none)
  /-- The operand is rejected, on any command but a decoder constructor. -/
  | rejected (k : CommandKind) (hk : k ≠ .decoderConstruct) (he : k.needsEncoder = true → s.enc.state = .ready)
      (hd : k.needsDecoder = true → s.dec.state = .ready) : Effect s k (.err s .invalidInput)
  /-- No Builder is constructed. -/
  | noEncoder (k : CommandKind) (hk : k.needsEncoder = true) (h : s.enc.state = .none) : Effect s k (.err s .notConstructed)
  /-- No Decoder is constructed. -/
  | noDecoder (k : CommandKind) (hk : k.needsDecoder = true) (h : s.dec.state = .none) : Effect s k (.err s .notConstructed)
  /-- The decoder session is aborted. -/
  | aborted (k : CommandKind) (hk : k.needsDecoder = true) (h : s.dec.state = .aborted) : Effect s k (.err s .sessionAborted)

theorem computeStateless_effect {α : Type} (x : Option α) (s : State) (result : α → Payload) :
    Effect s .stateless (computeStateless x s result) := by
  unfold computeStateless
  rcases expectOperand_cases x s (fun v => .ok s (result v)) with ⟨-, e⟩ | ⟨v, -, e⟩ <;> rw [e]
  · exact .rejected _ (by decide) (by simp [CommandKind.needsEncoder]) (by simp [CommandKind.needsDecoder])
  · exact .computed _

theorem constructEncoder_effect (bo wo : Endian) (repack : Bool) (s : State) :
    Effect s .encoderConstruct (constructEncoder bo wo repack s) := by
  rcases constructEncoder_cases bo wo repack s with ⟨-, e⟩ | ⟨ch, hd, hf, e⟩ | ⟨ch, hd, hf, e⟩ <;> rw [e]
  · exact .rejected _ (by decide) (by simp [CommandKind.needsEncoder]) (by simp [CommandKind.needsDecoder])
  · exact .opened bo wo repack ch hd hf
  · exact .seedTooLong ch hd hf

/-- An add that appends what its operand gives. -/
theorem add_effect {α : Type} (x : Option α) (chunk : α → List Byte) (s : State) :
    Effect s .encoderAdd (builderReady s <| expectOperand x s fun v => appendChunk s (chunk v)) := by
  rcases builderReady_cases s (expectOperand x s fun v => appendChunk s (chunk v)) with ⟨h, e⟩ | ⟨h, e⟩ <;> rw [e]
  · exact .noEncoder _ rfl h
  · rcases expectOperand_cases x s (fun v => appendChunk s (chunk v)) with ⟨-, e⟩ | ⟨v, -, e⟩ <;> rw [e]
    · exact .rejected _ (by decide) (fun _ => h) (by simp [CommandKind.needsDecoder])
    · rcases appendChunk_cases s (chunk v) with ⟨hf, e⟩ | ⟨hf, e⟩ <;> rw [e]
      · exact .appended h _ hf
      · exact .chunkTooLong h _ hf

theorem addScalar_effect (w : Width) (s : State) : Effect s .encoderAdd (addScalar w s) := add_effect _ _ s

theorem readAccumulator_effect (s : State) (result : Payload) : Effect s .encoderRead (readAccumulator s result) := by
  unfold readAccumulator
  rcases builderReady_cases s (expectOperand s.din.noneOf s fun _ => .ok s result) with ⟨h, e⟩ | ⟨h, e⟩ <;> rw [e]
  · exact .noEncoder _ rfl h
  · rcases expectOperand_cases s.din.noneOf s (fun _ => .ok s result) with ⟨-, e⟩ | ⟨v, -, e⟩ <;> rw [e]
    · exact .rejected _ (by decide) (fun _ => h) (by simp [CommandKind.needsDecoder])
    · exact .converted h _

theorem clear_effect (s : State) :
    Effect s .encoderClear (builderReady s <| expectOperand s.din.noneOf s fun _ => .ok (s.setChunks []) .none) := by
  rcases builderReady_cases s (expectOperand s.din.noneOf s fun _ => .ok (s.setChunks []) .none) with
    ⟨h, e⟩ | ⟨h, e⟩ <;> rw [e]
  · exact .noEncoder _ rfl h
  · rcases expectOperand_cases s.din.noneOf s (fun _ => .ok (s.setChunks []) .none) with ⟨-, e⟩ | ⟨v, -, e⟩ <;> rw [e]
    · exact .rejected _ (by decide) (fun _ => h) (by simp [CommandKind.needsDecoder])
    · exact .cleared h

theorem decoderFrom_effect (x : Option (List Byte)) (bo wo : Endian) (s : State) :
    Effect s .decoderConstruct (decoderFrom x bo wo s) := by
  rcases decoderFrom_cases x bo wo s with ⟨-, e⟩ | ⟨buf, -, hf, e⟩ | ⟨buf, -, hf, e⟩ <;> rw [e]
  · exact .loadRejected
  · exact .loaded bo wo buf hf
  · exact .bufferTooLong buf hf

theorem decodeBytes_effect (n : Nat) (s : State) (result : List Byte → Payload) :
    Effect s (.decoderTake n) (decodeBytes n s result) := by
  rcases decodeBytes_cases n s result with ⟨h, e⟩ | ⟨h, e⟩ | ⟨h, -, e⟩ | ⟨h, hd, hn, e⟩ | ⟨h, hd, hn, e⟩ <;> rw [e]
  · exact .noDecoder _ rfl h
  · exact .aborted _ rfl h
  · exact .rejected _ (by simp) (by simp [CommandKind.needsEncoder]) (fun _ => h)
  · exact .truncated n h hd hn
  · exact .taken n h hd hn _

theorem rewind_effect (s : State) : Effect s .decoderRewind (decoderReady s (.ok (s.setCursor 0) .none)) := by
  rcases decoderReady_cases s (.ok (s.setCursor 0) .none) with ⟨h, e⟩ | ⟨h, e⟩ | ⟨h, -, e⟩ | ⟨h, hd, e⟩ <;> rw [e]
  · exact .noDecoder _ rfl h
  · exact .aborted _ rfl h
  · exact .rejected _ (by simp) (by simp [CommandKind.needsEncoder]) (fun _ => h)
  · exact .rewound h hd

/-- A command's answer is the response to a reply that its kind allows. -/
def Answers (i : Instr) (s : State) (o : Outcome) : Prop := ∃ r : Reply, o = respond r ∧ Effect s i.kind r

theorem answers_of_effect {i : Instr} {s : State} {r : Reply} (h : Effect s i.kind r) : Answers i s (respond r) := ⟨r, rfl, h⟩

/-- Every command answers the response to a reply that its kind allows. -/
theorem exec_effect (i : Instr) (s : State) : Answers i s (exec i s) := by
  cases i with
  | xfwd8 bo wo => exact answers_of_effect (computeStateless_effect _ s _)
  | xfwd16 bo wo => exact answers_of_effect (computeStateless_effect _ s _)
  | xfwd32 bo wo => exact answers_of_effect (computeStateless_effect _ s _)
  | xfwd64 bo wo => exact answers_of_effect (computeStateless_effect _ s _)
  | xinv8 bo wo => exact answers_of_effect (computeStateless_effect _ s _)
  | xinv16 bo wo => exact answers_of_effect (computeStateless_effect _ s _)
  | xinv32 bo wo => exact answers_of_effect (computeStateless_effect _ s _)
  | xinv64 bo wo => exact answers_of_effect (computeStateless_effect _ s _)
  | pack => exact answers_of_effect (computeStateless_effect _ s _)
  | unpack => exact answers_of_effect (computeStateless_effect _ s _)
  | bInit bo wo repack => exact answers_of_effect (constructEncoder_effect bo wo repack s)
  | bAddU8 => exact answers_of_effect (addScalar_effect _ s)
  | bAddI8 => exact answers_of_effect (addScalar_effect _ s)
  | bAddU16 => exact answers_of_effect (addScalar_effect _ s)
  | bAddI16 => exact answers_of_effect (addScalar_effect _ s)
  | bAddF16 => exact answers_of_effect (addScalar_effect _ s)
  | bAddU32 => exact answers_of_effect (addScalar_effect _ s)
  | bAddI32 => exact answers_of_effect (addScalar_effect _ s)
  | bAddF32 => exact answers_of_effect (addScalar_effect _ s)
  | bAddU64 => exact answers_of_effect (addScalar_effect _ s)
  | bAddI64 => exact answers_of_effect (addScalar_effect _ s)
  | bAddF64 => exact answers_of_effect (addScalar_effect _ s)
  | bAddStr => exact answers_of_effect (add_effect s.din.bytesOf (fun x => x) s)
  | bAddBits => exact answers_of_effect (add_effect s.din.bitsOf pack s)
  | bEncode => exact answers_of_effect (readAccumulator_effect s _)
  | bBuild => exact answers_of_effect (readAccumulator_effect s _)
  | bToRegs => exact answers_of_effect (readAccumulator_effect s _)
  | bToCoils => exact answers_of_effect (readAccumulator_effect s _)
  | bReset => exact answers_of_effect (clear_effect s)
  | dInitRaw bo wo => exact answers_of_effect (decoderFrom_effect _ bo wo s)
  | dFromRegs bo wo => exact answers_of_effect (decoderFrom_effect _ bo wo s)
  | dFromCoils bo ignoredWo => exact answers_of_effect (decoderFrom_effect _ bo .big s)
  | dU8 => exact answers_of_effect (decodeBytes_effect _ s _)
  | dI8 => exact answers_of_effect (decodeBytes_effect _ s _)
  | dU16 => exact answers_of_effect (decodeBytes_effect _ s _)
  | dI16 => exact answers_of_effect (decodeBytes_effect _ s _)
  | dF16 => exact answers_of_effect (decodeBytes_effect _ s _)
  | dU32 => exact answers_of_effect (decodeBytes_effect _ s _)
  | dI32 => exact answers_of_effect (decodeBytes_effect _ s _)
  | dF32 => exact answers_of_effect (decodeBytes_effect _ s _)
  | dU64 => exact answers_of_effect (decodeBytes_effect _ s _)
  | dI64 => exact answers_of_effect (decodeBytes_effect _ s _)
  | dF64 => exact answers_of_effect (decodeBytes_effect _ s _)
  | dBits count => exact answers_of_effect (decodeBytes_effect count s _)
  | dStr count => exact answers_of_effect (decodeBytes_effect count s _)
  | dSkip count => exact answers_of_effect (decodeBytes_effect count s _)
  | dReset => exact answers_of_effect (rewind_effect s)

/-- A next state of a command is the state of a reply that its kind allows. -/
theorem exec_next {i : Instr} {s t : State} (h : exec i s = .next t) : ∃ r : Reply, t = r.state ∧ Effect s i.kind r := by
  obtain ⟨r, e, hr⟩ := exec_effect i s
  exact ⟨r, respond_eq_next.mp (e.symm.trans h), hr⟩

/-- One step: it is idle, or it answers IllegalCommand, or it runs the decoded command. -/
theorem step_cases (s : State) :
    (s.pending = [] ∧ step s = .next s) ∨
      (∃ t rest, s.pending = t :: rest ∧
        ((∃ e, decodeCmd t.cmd = .error e ∧ step s = .next ((s.accept t rest).raise .illegalCommand)) ∨
          ∃ i, decodeCmd t.cmd = .ok i ∧ step s = exec i (s.accept t rest))) := by
  cases hp : s.pending with
  | nil => exact .inl ⟨rfl, by simp [step, State.nextCommand_nil hp]⟩
  | cons t rest =>
    refine .inr ⟨t, rest, rfl, ?_⟩
    cases hd : decodeCmd t.cmd with
    | error e => exact .inl ⟨e, rfl, by simp [step, State.nextCommand_cons hp, perform, hd, respond]⟩
    | ok i => exact .inr ⟨i, rfl, by simp [step, State.nextCommand_cons hp, perform, hd]⟩

/-! ### Runs -/

theorem reaches_zero {s t : State} : Reaches 0 s t ↔ s = t :=
  ⟨fun h => Host.Outcome.next.inj h, fun h => congrArg Host.Outcome.next h⟩

theorem reaches_succ {n : Nat} {s t : State} : Reaches (n + 1) s t ↔ ∃ u, step s = .next u ∧ Reaches n u t := by
  have hc : Sys2Proof.core.step s = step s := rfl
  unfold Reaches
  cases h : step s with
  | next u => simp [Host.Core.run, hc.trans h]
  | fault r => exact nomatch r
  | refused r => simp [Host.Core.run, hc.trans h]

end Sys2Proof.Machine
end

