-- ==== Sys2Proof/Laws/Memory.lean ====
section
/-! SUPPORT. Every operation on the byte stores keeps their form, `Memory.wf` (R29, R57). -/

namespace Sys2Proof.Machine

theorem Memory.wf_iff (s : State) :
    Memory.wf s = true ↔ fitsCapacity s.cfg.encCap s.enc.flat.length = true ∧
      fitsCapacity s.cfg.decCap s.dec.buf.length = true ∧ s.dec.cur ≤ s.dec.buf.length := by
  unfold Memory.wf
  rw [Bool.and_eq_true, Bool.and_eq_true, decide_eq_true_iff, and_assoc]

theorem Memory.wf_resetWith (c : Config) : Memory.wf (State.resetWith c) = true := by
  rw [Memory.wf_iff]
  exact ⟨fitsCapacity_zero _, fitsCapacity_zero _, le_refl 0⟩

theorem Memory.wf_append {s : State} {chunk : List Byte} (h : Memory.wf s = true)
    (hf : fitsCapacity s.cfg.encCap (s.enc.flat.length + chunk.length) = true) :
    Memory.wf (s.setChunks (s.enc.chunks ++ [chunk])) = true := by
  rw [Memory.wf_iff] at *
  refine ⟨?_, h.2⟩
  have e : (s.setChunks (s.enc.chunks ++ [chunk])).enc.flat.length = s.enc.flat.length + chunk.length := by
    simp [Encoder.flat]
  rw [e]
  exact hf

theorem Memory.wf_clear {s : State} (h : Memory.wf s = true) : Memory.wf (s.setChunks []) = true := by
  rw [Memory.wf_iff] at *
  exact ⟨fitsCapacity_zero _, h.2⟩

theorem Memory.wf_openEncoder {s : State} {ch : List (List Byte)} (bo wo : Endian) (repack : Bool) (h : Memory.wf s = true)
    (hf : fitsCapacity s.cfg.encCap ch.flatten.length = true) : Memory.wf (s.openEncoder bo wo repack ch) = true := by
  rw [Memory.wf_iff] at *
  exact ⟨hf, h.2⟩

theorem Memory.wf_openDecoder {s : State} {buf : List Byte} (bo wo : Endian) (h : Memory.wf s = true)
    (hf : fitsCapacity s.cfg.decCap buf.length = true) : Memory.wf (s.openDecoder bo wo buf) = true := by
  rw [Memory.wf_iff] at *
  exact ⟨h.1, hf, Nat.zero_le _⟩

theorem Memory.wf_abortDecoder {s : State} (h : Memory.wf s = true) : Memory.wf s.abortDecoder = true := h

theorem Memory.wf_setCursor {s : State} {c : Nat} (h : Memory.wf s = true) (hc : c ≤ s.dec.buf.length) :
    Memory.wf (s.setCursor c) = true := by
  rw [Memory.wf_iff] at *
  exact ⟨h.1, h.2.1, hc⟩

theorem Memory.wf_complete {s : State} (out : Payload) (h : Memory.wf s = true) : Memory.wf (s.complete out) = true := h

theorem Memory.wf_raise {s : State} (e : CommandError) (h : Memory.wf s = true) : Memory.wf (s.raise e) = true := h

theorem Memory.wf_accept {s : State} (t : Transaction) (rest : List Transaction) (h : Memory.wf s = true) :
    Memory.wf (s.accept t rest) = true := h

end Sys2Proof.Machine
end

