-- ==== Sys2Proof/Laws/Operands.lean ====
section
/-! SUPPORT. A command's operand is rejected exactly when DIN lacks the form of the table of R78. -/

namespace Sys2Proof.Machine

theorem Payload.scalarOf_eq_none {w : Width} {p : Payload} : p.scalarOf w = Option.none ↔ p.hasForm (.scalar w) = false := by
  cases p with
  | scalar w' x => by_cases h : w' = w <;> simp [Payload.scalarOf, Payload.hasForm, h]
  | _ => simp [Payload.scalarOf, Payload.hasForm]

theorem Payload.bytesOf_eq_none {p : Payload} : p.bytesOf = Option.none ↔ p.hasForm .bytes = false := by
  cases p <;> simp [Payload.bytesOf, Payload.hasForm]

theorem Payload.bitsOf_eq_none {p : Payload} : p.bitsOf = Option.none ↔ p.hasForm .bits = false := by
  cases p <;> simp [Payload.bitsOf, Payload.hasForm]

theorem Payload.regsOf_eq_none {p : Payload} : p.regsOf = Option.none ↔ p.hasForm .regs = false := by
  cases p <;> simp [Payload.regsOf, Payload.hasForm]

theorem Payload.noneOf_eq_none {p : Payload} : p.noneOf = Option.none ↔ p.hasForm .nothing = false := by
  cases p <;> simp [Payload.noneOf, Payload.hasForm]

theorem Payload.bytesOfLength_eq_none {n : Nat} {p : Payload} :
    p.bytesOfLength n = Option.none ↔ p.hasForm (.bytesOfLength n) = false := by
  cases p <;> simp [Payload.bytesOfLength, Payload.bytesOf, Payload.hasForm]

theorem Payload.seedChunks_eq_none {p : Payload} : p.seedChunks = Option.none ↔ p.hasForm .nothingOrBytes = false := by
  cases p <;> simp [Payload.seedChunks, Payload.hasForm]

theorem Payload.map_regsOf_eq_none {p : Payload} : p.regsOf.map regsToBytes = Option.none ↔ p.hasForm .regs = false := by
  rw [Option.map_eq_none_iff, Payload.regsOf_eq_none]

theorem Payload.map_bitsOf_eq_none {p : Payload} : p.bitsOf.map coilsToBytes = Option.none ↔ p.hasForm .bits = false := by
  rw [Option.map_eq_none_iff, Payload.bitsOf_eq_none]

theorem Payload.eq_none_of_hasForm {p : Payload} (h : p.hasForm .nothing = true) : p = .none := by
  simpa [Payload.hasForm] using h

end Sys2Proof.Machine
end

