-- ==== Sys2Proof/Laws/PerInstr.lean ====
section
/-! SUPPORT. Per command: the fields of its encoded word are the fields R72 and R73 give it (R65, R83). -/

namespace Sys2Proof.Laws.EncodeFields

/-- The field values of a command (R72, R73). -/
def fieldValues : Instr → CommandFields
  | .xfwd8 bo wo => ⟨0x01, bo.code, wo.code, 0, 0, 0⟩
  | .xfwd16 bo wo => ⟨0x02, bo.code, wo.code, 0, 0, 0⟩
  | .xfwd32 bo wo => ⟨0x03, bo.code, wo.code, 0, 0, 0⟩
  | .xfwd64 bo wo => ⟨0x04, bo.code, wo.code, 0, 0, 0⟩
  | .xinv8 bo wo => ⟨0x05, bo.code, wo.code, 0, 0, 0⟩
  | .xinv16 bo wo => ⟨0x06, bo.code, wo.code, 0, 0, 0⟩
  | .xinv32 bo wo => ⟨0x07, bo.code, wo.code, 0, 0, 0⟩
  | .xinv64 bo wo => ⟨0x08, bo.code, wo.code, 0, 0, 0⟩
  | .pack => ⟨0x09, 0, 0, 0, 0, 0⟩
  | .unpack => ⟨0x0A, 0, 0, 0, 0, 0⟩
  | .bInit bo wo repack => ⟨0x10, bo.code, wo.code, BitVec.ofBool repack, 0, 0⟩
  | .bAddU8 => ⟨0x11, 0, 0, 0, 0, 0⟩
  | .bAddI8 => ⟨0x12, 0, 0, 0, 0, 0⟩
  | .bAddU16 => ⟨0x13, 0, 0, 0, 0, 0⟩
  | .bAddI16 => ⟨0x14, 0, 0, 0, 0, 0⟩
  | .bAddF16 => ⟨0x15, 0, 0, 0, 0, 0⟩
  | .bAddU32 => ⟨0x16, 0, 0, 0, 0, 0⟩
  | .bAddI32 => ⟨0x17, 0, 0, 0, 0, 0⟩
  | .bAddF32 => ⟨0x18, 0, 0, 0, 0, 0⟩
  | .bAddU64 => ⟨0x19, 0, 0, 0, 0, 0⟩
  | .bAddI64 => ⟨0x1A, 0, 0, 0, 0, 0⟩
  | .bAddF64 => ⟨0x1B, 0, 0, 0, 0, 0⟩
  | .bAddStr => ⟨0x1C, 0, 0, 0, 0, 0⟩
  | .bAddBits => ⟨0x1D, 0, 0, 0, 0, 0⟩
  | .bEncode => ⟨0x20, 0, 0, 0, 0, 0⟩
  | .bBuild => ⟨0x21, 0, 0, 0, 0, 0⟩
  | .bToRegs => ⟨0x22, 0, 0, 0, 0, 0⟩
  | .bToCoils => ⟨0x23, 0, 0, 0, 0, 0⟩
  | .bReset => ⟨0x24, 0, 0, 0, 0, 0⟩
  | .dInitRaw bo wo => ⟨0x30, bo.code, wo.code, 0, 0, 0⟩
  | .dFromRegs bo wo => ⟨0x31, bo.code, wo.code, 0, 0, 0⟩
  | .dFromCoils bo ignoredWo => ⟨0x32, bo.code, ignoredWo, 0, 0, 0⟩
  | .dU8 => ⟨0x33, 0, 0, 0, 0, 0⟩
  | .dI8 => ⟨0x34, 0, 0, 0, 0, 0⟩
  | .dU16 => ⟨0x35, 0, 0, 0, 0, 0⟩
  | .dI16 => ⟨0x36, 0, 0, 0, 0, 0⟩
  | .dF16 => ⟨0x37, 0, 0, 0, 0, 0⟩
  | .dU32 => ⟨0x38, 0, 0, 0, 0, 0⟩
  | .dI32 => ⟨0x39, 0, 0, 0, 0, 0⟩
  | .dF32 => ⟨0x3A, 0, 0, 0, 0, 0⟩
  | .dU64 => ⟨0x3B, 0, 0, 0, 0, 0⟩
  | .dI64 => ⟨0x3C, 0, 0, 0, 0, 0⟩
  | .dF64 => ⟨0x3D, 0, 0, 0, 0, 0⟩
  | .dBits count => ⟨0x3E, 0, 0, 0, 0, BitVec.ofNat 16 count⟩
  | .dStr count => ⟨0x3F, 0, 0, 0, 0, BitVec.ofNat 16 count⟩
  | .dSkip count => ⟨0x40, 0, 0, 0, 0, BitVec.ofNat 16 count⟩
  | .dReset => ⟨0x41, 0, 0, 0, 0, 0⟩

/-- The word of a well-formed command, cut into its fields, gives the command's field values. -/
def Statement (i : Instr) : Prop := i.wf = true → commandFields (encode i) = fieldValues i

/-- A field of a word that is given as a number. -/
theorem toNat_extractLsb'_ofNat (n a b : Nat) :
    ((BitVec.ofNat 32 n).extractLsb' a b).toNat = n % 2 ^ 32 / 2 ^ a % 2 ^ b := by
  rw [BitVec.extractLsb'_toNat, BitVec.toNat_ofNat, Nat.shiftRight_eq_div_pow]

/-- The fields of a word that holds an opcode and a count only. -/
theorem commandFields_counted (opc : BitVec 8) (count : Nat) (h : count < 2 ^ 16) :
    commandFields (commandWord opc 0 0 0 count) = ⟨opc, 0, 0, 0, 0, BitVec.ofNat 16 count⟩ := by
  have ho := opc.isLt
  have hw : commandWord opc 0 0 0 count = BitVec.ofNat 32 (opc.toNat * 2 ^ 24 + count) := by
    have h2 : (0 : BitVec 2).toNat = 0 := rfl
    have h1 : (0 : BitVec 1).toNat = 0 := rfl
    simp only [commandWord, h1, h2, Nat.zero_mul, Nat.add_zero]
  rw [hw, commandFields, CommandFields.mk.injEq]
  refine ⟨?_, ?_, ?_, ?_, ?_, ?_⟩ <;> apply BitVec.eq_of_toNat_eq <;> rw [toNat_extractLsb'_ofNat]
  · omega
  · show _ = 0
    omega
  · show _ = 0
    omega
  · show _ = 0
    omega
  · show _ = 0
    omega
  · rw [BitVec.toNat_ofNat]
    omega

theorem xfwd8 (bo wo : Endian) : Statement (.xfwd8 bo wo) := by intro _; cases bo <;> cases wo <;> decide
theorem xfwd16 (bo wo : Endian) : Statement (.xfwd16 bo wo) := by intro _; cases bo <;> cases wo <;> decide
theorem xfwd32 (bo wo : Endian) : Statement (.xfwd32 bo wo) := by intro _; cases bo <;> cases wo <;> decide
theorem xfwd64 (bo wo : Endian) : Statement (.xfwd64 bo wo) := by intro _; cases bo <;> cases wo <;> decide
theorem xinv8 (bo wo : Endian) : Statement (.xinv8 bo wo) := by intro _; cases bo <;> cases wo <;> decide
theorem xinv16 (bo wo : Endian) : Statement (.xinv16 bo wo) := by intro _; cases bo <;> cases wo <;> decide
theorem xinv32 (bo wo : Endian) : Statement (.xinv32 bo wo) := by intro _; cases bo <;> cases wo <;> decide
theorem xinv64 (bo wo : Endian) : Statement (.xinv64 bo wo) := by intro _; cases bo <;> cases wo <;> decide
theorem pack : Statement .pack := by intro _; decide
theorem unpack : Statement .unpack := by intro _; decide
theorem bInit (bo wo : Endian) (repack : Bool) : Statement (.bInit bo wo repack) := by intro _; cases bo <;> cases wo <;> cases repack <;> decide
theorem bAddU8 : Statement .bAddU8 := by intro _; decide
theorem bAddI8 : Statement .bAddI8 := by intro _; decide
theorem bAddU16 : Statement .bAddU16 := by intro _; decide
theorem bAddI16 : Statement .bAddI16 := by intro _; decide
theorem bAddF16 : Statement .bAddF16 := by intro _; decide
theorem bAddU32 : Statement .bAddU32 := by intro _; decide
theorem bAddI32 : Statement .bAddI32 := by intro _; decide
theorem bAddF32 : Statement .bAddF32 := by intro _; decide
theorem bAddU64 : Statement .bAddU64 := by intro _; decide
theorem bAddI64 : Statement .bAddI64 := by intro _; decide
theorem bAddF64 : Statement .bAddF64 := by intro _; decide
theorem bAddStr : Statement .bAddStr := by intro _; decide
theorem bAddBits : Statement .bAddBits := by intro _; decide
theorem bEncode : Statement .bEncode := by intro _; decide
theorem bBuild : Statement .bBuild := by intro _; decide
theorem bToRegs : Statement .bToRegs := by intro _; decide
theorem bToCoils : Statement .bToCoils := by intro _; decide
theorem bReset : Statement .bReset := by intro _; decide
theorem dInitRaw (bo wo : Endian) : Statement (.dInitRaw bo wo) := by intro _; cases bo <;> cases wo <;> decide
theorem dFromRegs (bo wo : Endian) : Statement (.dFromRegs bo wo) := by intro _; cases bo <;> cases wo <;> decide
theorem dFromCoils (bo : Endian) (ignoredWo : BitVec 2) : Statement (.dFromCoils bo ignoredWo) := by intro _; cases bo <;> revert ignoredWo <;> decide
theorem dU8 : Statement .dU8 := by intro _; decide
theorem dI8 : Statement .dI8 := by intro _; decide
theorem dU16 : Statement .dU16 := by intro _; decide
theorem dI16 : Statement .dI16 := by intro _; decide
theorem dF16 : Statement .dF16 := by intro _; decide
theorem dU32 : Statement .dU32 := by intro _; decide
theorem dI32 : Statement .dI32 := by intro _; decide
theorem dF32 : Statement .dF32 := by intro _; decide
theorem dU64 : Statement .dU64 := by intro _; decide
theorem dI64 : Statement .dI64 := by intro _; decide
theorem dF64 : Statement .dF64 := by intro _; decide
theorem dBits (count : Nat) : Statement (.dBits count) := fun h => commandFields_counted 0x3E count (of_decide_eq_true h)
theorem dStr (count : Nat) : Statement (.dStr count) := fun h => commandFields_counted 0x3F count (of_decide_eq_true h)
theorem dSkip (count : Nat) : Statement (.dSkip count) := fun h => commandFields_counted 0x40 count (of_decide_eq_true h)
theorem dReset : Statement .dReset := by intro _; decide

/-- Every command's word holds its fields. -/
theorem all (i : Instr) : Statement i := by
  cases i with
  | xfwd8 bo wo => exact xfwd8 bo wo
  | xfwd16 bo wo => exact xfwd16 bo wo
  | xfwd32 bo wo => exact xfwd32 bo wo
  | xfwd64 bo wo => exact xfwd64 bo wo
  | xinv8 bo wo => exact xinv8 bo wo
  | xinv16 bo wo => exact xinv16 bo wo
  | xinv32 bo wo => exact xinv32 bo wo
  | xinv64 bo wo => exact xinv64 bo wo
  | pack => exact pack
  | unpack => exact unpack
  | bInit bo wo repack => exact bInit bo wo repack
  | bAddU8 => exact bAddU8
  | bAddI8 => exact bAddI8
  | bAddU16 => exact bAddU16
  | bAddI16 => exact bAddI16
  | bAddF16 => exact bAddF16
  | bAddU32 => exact bAddU32
  | bAddI32 => exact bAddI32
  | bAddF32 => exact bAddF32
  | bAddU64 => exact bAddU64
  | bAddI64 => exact bAddI64
  | bAddF64 => exact bAddF64
  | bAddStr => exact bAddStr
  | bAddBits => exact bAddBits
  | bEncode => exact bEncode
  | bBuild => exact bBuild
  | bToRegs => exact bToRegs
  | bToCoils => exact bToCoils
  | bReset => exact bReset
  | dInitRaw bo wo => exact dInitRaw bo wo
  | dFromRegs bo wo => exact dFromRegs bo wo
  | dFromCoils bo ignoredWo => exact dFromCoils bo ignoredWo
  | dU8 => exact dU8
  | dI8 => exact dI8
  | dU16 => exact dU16
  | dI16 => exact dI16
  | dF16 => exact dF16
  | dU32 => exact dU32
  | dI32 => exact dI32
  | dF32 => exact dF32
  | dU64 => exact dU64
  | dI64 => exact dI64
  | dF64 => exact dF64
  | dBits count => exact dBits count
  | dStr count => exact dStr count
  | dSkip count => exact dSkip count
  | dReset => exact dReset

end Sys2Proof.Laws.EncodeFields
end

