-- ==== Sys2Proof/Laws/Sequences.lean ====
section
/-! SUPPORT. The small lemmas of the byte and bit functions: splitting a sequence, the canonical encoding, units, packing. -/

namespace Sys2Proof.Machine

/-! ### Splitting a sequence -/

section Chunks

variable {α : Type} {k : Nat}

theorem chunksUpTo_nil (fuel : Nat) : chunksUpTo k fuel ([] : List α) = [] := by cases fuel <;> rfl

theorem chunksUpTo_cons (fuel : Nat) (x : α) (s : List α) :
    chunksUpTo k (fuel + 1) (x :: s) = (x :: s).take k :: chunksUpTo k fuel ((x :: s).drop k) := rfl

/-- Any fuel that is at least the length gives all the pieces. -/
theorem chunksUpTo_eq (hk : 0 < k) (fuel : Nat) (s : List α) (h : s.length ≤ fuel) :
    chunksUpTo k fuel s = chunksOf k s := by
  unfold chunksOf
  induction fuel using Nat.strong_induction_on generalizing s with
  | _ fuel ih =>
    cases s with
    | nil => simp [chunksUpTo_nil]
    | cons x s =>
      cases fuel with
      | zero => simp at h
      | succ fuel =>
        have hd : ((x :: s).drop k).length ≤ s.length := by simp; omega
        simp only [List.length_cons] at h
        rw [List.length_cons, chunksUpTo_cons, chunksUpTo_cons, ih fuel (by omega) _ (by omega)]
        rcases Nat.lt_or_ge s.length (fuel + 1) with hl | hl
        · rw [ih s.length hl _ hd]
        · omega

theorem chunksOf_nil : chunksOf k ([] : List α) = [] := rfl

theorem chunksOf_cons (hk : 0 < k) (x : α) (s : List α) :
    chunksOf k (x :: s) = (x :: s).take k :: chunksOf k ((x :: s).drop k) := by
  rw [← chunksUpTo_eq hk s.length ((x :: s).drop k) (by simp; omega)]
  rfl

/-- The first piece of a sequence that begins with a whole piece. -/
theorem chunksOf_append (hk : 0 < k) (g s : List α) (hg : g.length = k) : chunksOf k (g ++ s) = g :: chunksOf k s := by
  cases g with
  | nil => simp at hg; omega
  | cons x g =>
    rw [List.cons_append, chunksOf_cons hk, ← List.cons_append, List.take_left' hg, List.drop_left' hg]

/-- A sequence no longer than a piece is one piece. -/
theorem chunksOf_short {s : List α} (hs : s ≠ []) (h : s.length ≤ k) : chunksOf k s = [s] := by
  cases s with
  | nil => exact absurd rfl hs
  | cons x s =>
    have hk : 0 < k := by simp at h; omega
    rw [chunksOf_cons hk, List.take_of_length_le h, List.drop_of_length_le h, chunksOf_nil]

/-- A sequence is empty, or a short piece, or a whole piece followed by the rest: the cases in which its pieces are known. -/
theorem chunksOf_induction (hk : 0 < k) {motive : List α → Prop} (nil : motive [])
    (short : ∀ s, s ≠ [] → s.length < k → motive s) (piece : ∀ g s, g.length = k → motive s → motive (g ++ s)) :
    ∀ s, motive s := by
  intro s
  induction h : s.length using Nat.strong_induction_on generalizing s with
  | _ n ih =>
    rcases Nat.lt_or_ge s.length k with hl | hl
    · by_cases hs : s = []
      · exact hs ▸ nil
      · exact short s hs hl
    · rw [← List.take_append_drop k s]
      refine piece _ _ (by simp; omega) (ih (s.drop k).length ?_ _ rfl)
      simp
      omega

theorem flatten_chunksOf (hk : 0 < k) (s : List α) : (chunksOf k s).flatten = s := by
  induction s using chunksOf_induction hk with
  | nil => rfl
  | short s hs hl => simp [chunksOf_short hs (le_of_lt hl)]
  | piece g s hg ih => simp [chunksOf_append hk g s hg, ih]

theorem length_chunksOf (hk : 0 < k) (s : List α) : (chunksOf k s).length = (s.length + (k - 1)) / k := by
  induction s using chunksOf_induction hk with
  | nil => simp only [chunksOf_nil, List.length_nil, Nat.zero_add]; exact (Nat.div_eq_of_lt (by omega)).symm
  | short s hs hl =>
    have h0 : 0 < s.length := List.length_pos_of_ne_nil hs
    rw [chunksOf_short hs (le_of_lt hl), List.length_singleton]
    exact (Nat.div_eq_of_lt_le (by omega) (by omega)).symm
  | piece g s hg ih =>
    rw [chunksOf_append hk g s hg, List.length_cons, ih, List.length_append, hg,
      show k + s.length + (k - 1) = s.length + (k - 1) + k by omega, Nat.add_div_right _ hk]

end Chunks

/-! ### The canonical encoding -/

theorem beBytes_zero (v : Nat) : beBytes 0 v = [] := rfl

theorem beBytes_succ (n v : Nat) : beBytes (n + 1) v = BitVec.ofNat 8 (v / 256 ^ n) :: beBytes n v := rfl

theorem length_beBytes (n v : Nat) : (beBytes n v).length = n := by
  induction n with
  | zero => rfl
  | succ n ih => simp [beBytes_succ, ih]

theorem beValue_cons (b : Byte) (s : List Byte) : beValue (b :: s) = b.toNat * 256 ^ s.length + beValue s := rfl

theorem beValue_lt (s : List Byte) : beValue s < 256 ^ s.length := by
  induction s with
  | nil => simp [beValue]
  | cons b s ih =>
    have hb : b.toNat < 256 := b.isLt
    rw [beValue_cons, List.length_cons, pow_succ]
    nlinarith [Nat.mul_le_mul_right (256 ^ s.length) (Nat.le_of_lt_succ hb)]

/-! ### Units and the transform on the lengths of the four widths -/

theorem units_two (a b : Byte) : units [a, b] = [[a, b]] := rfl

theorem units_four (a b c d : Byte) : units [a, b, c, d] = [[a, b], [c, d]] := rfl

theorem units_eight (a b c d e f g h : Byte) : units [a, b, c, d, e, f, g, h] = [[a, b], [c, d], [e, f], [g, h]] := rfl

theorem eff_eq_little {e : Endian} : eff e = .little ↔ e = .little := by cases e <;> simp [eff]

theorem xform_w16 (bo wo : Endian) (a b : Byte) :
    xform .w16 bo wo [a, b] = if bo = .little then [b, a] else [a, b] := by cases bo <;> cases wo <;> rfl

theorem xform_w32 (bo wo : Endian) (a b c d : Byte) :
    xform .w32 bo wo [a, b, c, d] =
      if bo = .little then (if wo = .little then [d, c, b, a] else [b, a, d, c])
      else (if wo = .little then [c, d, a, b] else [a, b, c, d]) := by cases bo <;> cases wo <;> rfl

theorem xform_w64 (bo wo : Endian) (a b c d e f g h : Byte) :
    xform .w64 bo wo [a, b, c, d, e, f, g, h] =
      if bo = .little then
        (if wo = .little then [h, g, f, e, d, c, b, a] else [b, a, d, c, f, e, h, g])
      else (if wo = .little then [g, h, e, f, c, d, a, b] else [a, b, c, d, e, f, g, h]) := by
  cases bo <;> cases wo <;> rfl

theorem length_two {α : Type} {x : List α} (h : x.length = 2) : ∃ a b, x = [a, b] := by
  match x, h with
  | [a, b], _ => exact ⟨a, b, rfl⟩

theorem length_four {α : Type} {x : List α} (h : x.length = 4) : ∃ a b c d, x = [a, b, c, d] := by
  match x, h with
  | [a, b, c, d], _ => exact ⟨a, b, c, d, rfl⟩

theorem length_eight {α : Type} {x : List α} (h : x.length = 8) : ∃ a b c d e f g i, x = [a, b, c, d, e, f, g, i] := by
  match x, h with
  | [a, b, c, d, e, f, g, i], _ => exact ⟨a, b, c, d, e, f, g, i, rfl⟩

theorem length_xform (w : Width) (bo wo : Endian) (x : List Byte) (h : x.length = w.bytes) :
    (xform w bo wo x).length = w.bytes := by
  cases w with
  | w8 => exact h
  | w16 => obtain ⟨a, b, rfl⟩ := length_two h; rw [xform_w16]; split <;> rfl
  | w32 => obtain ⟨a, b, c, d, rfl⟩ := length_four h; rw [xform_w32]; split <;> split <;> rfl
  | w64 => obtain ⟨a, b, c, d, e, f, g, i, rfl⟩ := length_eight h; rw [xform_w64]; split <;> split <;> rfl

/-! ### Bits and packing -/

theorem length_bitsLsbFirst {n : Nat} (x : BitVec n) : (bitsLsbFirst x).length = n := by simp [bitsLsbFirst]

theorem getElem?_bitsLsbFirst {n : Nat} (x : BitVec n) {i : Nat} (h : i < n) :
    (bitsLsbFirst x)[i]? = some (x.getLsbD i) := by
  simp [bitsLsbFirst, h]

theorem bitsValue_lt (g : List Bool) : bitsValue g < 2 ^ g.length := by
  induction g with
  | nil => simp [bitsValue]
  | cons b g ih =>
    rw [bitsValue, List.length_cons, pow_succ]
    cases b <;> simp only [Bool.false_eq_true, if_true, if_false] <;> omega

/-- Bit i of the number of a boolean sequence is its i-th boolean. -/
theorem testBit_bitsValue (g : List Bool) (i : Nat) : (bitsValue g).testBit i = (g[i]?).getD false := by
  induction g generalizing i with
  | nil => simp [bitsValue]
  | cons b g ih =>
    cases i with
    | zero => cases b <;> simp [bitsValue, Nat.testBit_zero]
    | succ i =>
      have hh : ((if b then 1 else 0) + 2 * bitsValue g) / 2 = bitsValue g := by
        cases b <;> simp only [Bool.false_eq_true, if_true, if_false] <;> omega
      rw [bitsValue, Nat.testBit_succ, hh, ih]
      simp

theorem getLsbD_packByte (g : List Bool) {i : Nat} (hi : i < 8) : (packByte g).getLsbD i = (g[i]?).getD false := by
  rw [packByte, BitVec.getLsbD_ofNat, testBit_bitsValue]
  simp [hi]

theorem pack_nil : pack [] = [] := rfl

theorem pack_append (g b : List Bool) (hg : g.length = 8) : pack (g ++ b) = packByte g :: pack b := by
  simp [pack, chunksOf_append (by decide) g b hg]

theorem pack_short {g : List Bool} (hg : g ≠ []) (h : g.length ≤ 8) : pack g = [packByte g] := by
  simp [pack, chunksOf_short hg h]

theorem length_pack (b : List Bool) : (pack b).length = (b.length + 7) / 8 := by
  simp [pack, length_chunksOf (k := 8) (by decide)]

theorem unpack_nil : unpack [] = [] := rfl

theorem unpack_cons (x : Byte) (d : List Byte) : unpack (x :: d) = bitsLsbFirst x ++ unpack d := by simp [unpack]

theorem packByte_bitsLsbFirst (x : Byte) : packByte (bitsLsbFirst x) = x := by
  apply BitVec.eq_of_getLsbD_eq
  intro i hi
  rw [getLsbD_packByte _ hi, getElem?_bitsLsbFirst x hi]
  rfl

theorem length_padCoils (c : List Bool) : (padCoils c).length = 8 * ((c.length + 7) / 8) := by
  simp only [padCoils, List.length_append, List.length_replicate]
  omega

theorem length_regsToBytes (r : List Register) : (regsToBytes r).length = 2 * r.length := by
  induction r with
  | nil => rfl
  | cons x r ih =>
    have hc : regsToBytes (x :: r) = beBytes 2 x.toNat ++ regsToBytes r := rfl
    simp [hc, ih, length_beBytes]
    omega

end Sys2Proof.Machine
end

