-- ==== Sys2Proof/Tests/Slice0.lean ====
section
/-! SUPPORT. Tests. The expected words, responses and stores come from the spec: the encodings of R65 and R73, the worked
examples of 30_encoding.md, and the vectors of 95_test_vectors.md (S2 to S9, A to E), or a hand evaluation of the rule that the
comment names. The witnesses show states and operands that meet the hypotheses of each obligation. -/

namespace Sys2Proof.Tests

open Sys2Proof Sys2Proof.Machine

/-! ### Helpers -/

/-- The next state of an outcome. -/
def nextOf : Outcome → Option State
  | .next t => some t
  | .fault _ | .refused _ => none

/-- STATUS and DOUT of an outcome. -/
def response (o : Outcome) : Option (StatusCode × Payload) := (nextOf o).map fun t => (t.status, t.dout)

/-- The flat accumulator of an outcome. -/
def flatOf (o : Outcome) : Option (List Byte) := (nextOf o).map fun t => t.enc.flat

/-- The decoder channel of an outcome. -/
def decOf (o : Outcome) : Option Decoder := (nextOf o).map fun t => t.dec

/-- Reset with an operand on DIN. -/
def operand (din : Payload) : State := { State.reset with din := din }

/-- Reset with an open Builder. -/
def builder (bo wo : Endian) (repack : Bool) (chunks : List (List Byte)) (din : Payload) : State :=
  { State.reset with enc := ⟨.ready, bo, wo, repack, chunks⟩, din := din }

/-- Reset with an open Decoder. -/
def decoder (bo wo : Endian) (buf : List Byte) (cur : Nat) (din : Payload) : State :=
  { State.reset with dec := ⟨.ready, bo, wo, buf, cur⟩, din := din }

/-- Reset with an aborted Decoder. -/
def abortedDecoder (din : Payload) : State :=
  { State.reset with dec := ⟨.aborted, .big, .big, [0xAB], 0⟩, din := din }

/-- A state with both capacities at `n` bytes. -/
def bounded (n : Nat) (s : State) : State := { s with cfg := ⟨some n, some n⟩ }

/-- A state whose host has the given transactions to issue. -/
def issuing (ts : List Transaction) (s : State) : State := { s with pending := ts }

/-! ### WellFormed refuses what no command word can hold (R71) -/

theorem test_wf_refuses_dBits : (Instr.dBits 65536).wf = false := by decide
theorem test_wf_refuses_dStr : (Instr.dStr 65536).wf = false := by decide
theorem test_wf_refuses_dSkip : (Instr.dSkip 65536).wf = false := by decide
theorem test_wf_accepts_largest_count :
    (Instr.dBits 65535).wf = true ∧ (Instr.dStr 65535).wf = true ∧ (Instr.dSkip 65535).wf = true := by decide

/-! ### Decoding: one word for every constructor, from R73's opcodes and R65's layout -/

/-- One word of every family written out field by field: OPC, BO, WO, REPACK, RSV, COUNT (R65). -/
theorem test_decode_fields :
    decodeTableWord 32 (0x03#8 ++ 0b01#2 ++ 0b10#2 ++ 0b0#1 ++ 0b000#3 ++ 0x0000#16).toNat = some (.xfwd32 .big .little)
      ∧ decodeTableWord 32 (0x0A#8 ++ 0b00#2 ++ 0b00#2 ++ 0b0#1 ++ 0b000#3 ++ 0x0000#16).toNat = some .unpack
      ∧ decodeTableWord 32 (0x10#8 ++ 0b10#2 ++ 0b01#2 ++ 0b1#1 ++ 0b000#3 ++ 0x0000#16).toNat
          = some (.bInit .little .big true)
      ∧ decodeTableWord 32 (0x40#8 ++ 0b00#2 ++ 0b00#2 ++ 0b0#1 ++ 0b000#3 ++ 0x8001#16).toNat = some (.dSkip 0x8001) := by
  decide

/-- 41_word_order.md section 2 and vector A. -/
theorem test_decode_transform :
    decodeTableWord 32 0x01A00000 = some (.xfwd8 .little .little)
      ∧ decodeTableWord 32 0x02900000 = some (.xfwd16 .little .big)
      ∧ decodeTableWord 32 0x03600000 = some (.xfwd32 .big .little)
      ∧ decodeTableWord 32 0x04200000 = some (.xfwd64 .native .little)
      ∧ decodeTableWord 32 0x05500000 = some (.xinv8 .big .big)
      ∧ decodeTableWord 32 0x06800000 = some (.xinv16 .little .native)
      ∧ decodeTableWord 32 0x07600000 = some (.xinv32 .big .little)
      ∧ decodeTableWord 32 0x08900000 = some (.xinv64 .little .big) := by
  decide

/-- 43_bit_packing.md section 2. -/
theorem test_decode_codec :
    decodeTableWord 32 0x09000000 = some .pack
      ∧ decodeTableWord 32 0x0A000000 = some .unpack := by
  decide

/-- 42_builder.md section 3. -/
theorem test_decode_builder_adds :
    decodeTableWord 32 0x11000000 = some .bAddU8
      ∧ decodeTableWord 32 0x12000000 = some .bAddI8
      ∧ decodeTableWord 32 0x13000000 = some .bAddU16
      ∧ decodeTableWord 32 0x14000000 = some .bAddI16
      ∧ decodeTableWord 32 0x15000000 = some .bAddF16
      ∧ decodeTableWord 32 0x16000000 = some .bAddU32
      ∧ decodeTableWord 32 0x17000000 = some .bAddI32
      ∧ decodeTableWord 32 0x18000000 = some .bAddF32
      ∧ decodeTableWord 32 0x19000000 = some .bAddU64
      ∧ decodeTableWord 32 0x1A000000 = some .bAddI64
      ∧ decodeTableWord 32 0x1B000000 = some .bAddF64
      ∧ decodeTableWord 32 0x1C000000 = some .bAddStr
      ∧ decodeTableWord 32 0x1D000000 = some .bAddBits := by
  decide

/-- 42_builder.md sections 2, 4 and 5. -/
theorem test_decode_builder_rest :
    decodeTableWord 32 0x10600000 = some (.bInit .big .little false)
      ∧ decodeTableWord 32 0x10980000 = some (.bInit .little .big true)
      ∧ decodeTableWord 32 0x20000000 = some .bEncode
      ∧ decodeTableWord 32 0x21000000 = some .bBuild
      ∧ decodeTableWord 32 0x22000000 = some .bToRegs
      ∧ decodeTableWord 32 0x23000000 = some .bToCoils
      ∧ decodeTableWord 32 0x24000000 = some .bReset := by
  decide

/-- 44_decoder.md section 1; D_FROM_COILS ignores WO, 3 included. -/
theorem test_decode_decoder_constructors :
    decodeTableWord 32 0x30500000 = some (.dInitRaw .big .big)
      ∧ decodeTableWord 32 0x31A00000 = some (.dFromRegs .little .little)
      ∧ decodeTableWord 32 0x32400000 = some (.dFromCoils .big 0)
      ∧ decodeTableWord 32 0x32700000 = some (.dFromCoils .big 3) := by
  decide

/-- 44_decoder.md section 3. -/
theorem test_decode_typed_decodes :
    decodeTableWord 32 0x33000000 = some .dU8
      ∧ decodeTableWord 32 0x34000000 = some .dI8
      ∧ decodeTableWord 32 0x35000000 = some .dU16
      ∧ decodeTableWord 32 0x36000000 = some .dI16
      ∧ decodeTableWord 32 0x37000000 = some .dF16
      ∧ decodeTableWord 32 0x38000000 = some .dU32
      ∧ decodeTableWord 32 0x39000000 = some .dI32
      ∧ decodeTableWord 32 0x3A000000 = some .dF32
      ∧ decodeTableWord 32 0x3B000000 = some .dU64
      ∧ decodeTableWord 32 0x3C000000 = some .dI64
      ∧ decodeTableWord 32 0x3D000000 = some .dF64 := by
  decide

/-- 44_decoder.md section 4, with COUNT at both ends of its range. -/
theorem test_decode_counted_and_reset :
    decodeTableWord 32 0x3E000001 = some (.dBits 1)
      ∧ decodeTableWord 32 0x3F000002 = some (.dStr 2)
      ∧ decodeTableWord 32 0x40000000 = some (.dSkip 0)
      ∧ decodeTableWord 32 0x4000FFFF = some (.dSkip 65535)
      ∧ decodeTableWord 32 0x41000000 = some .dReset := by
  decide

/-- Vector E: the gaps of the opcode map, at their ends (R74). -/
theorem test_decode_illegal_opcodes :
    ([0x00000000, 0x0B000000, 0x0F000000, 0x1E000000, 0x1F000000, 0x25000000, 0x2F000000, 0x42000000, 0xFF000000].map
      (decodeTableWord 32)).all (fun r => r == none) = true := by decide

/-- Every reason of R75: a field that must be 0 (BO, WO, REPACK, COUNT), RSV, and code 3 in a used order field. -/
theorem test_decode_illegal_fields :
    ([0x40400001, 0x09100000, 0x11080000, 0x03600001, 0x10510000, 0x10D00000, 0x31700000, 0x32C00000].map
      (decodeTableWord 32)).all (fun r => r == none) = true := by decide

/-- R83's words, from its formula. -/
theorem test_encode_worked_words :
    encode (.bInit .big .little false) = 0x10600000 ∧ encode (.dFromRegs .little .little) = 0x31A00000
      ∧ encode (.dSkip 2) = 0x40000002 ∧ encode (.bInit .big .big true) = 0x10580000 := by decide

/-! ### The commands -/

/-- Vector A. -/
theorem test_xfwd8 :
    response (exec (.xfwd8 .little .little) (operand (.bytes [0xAB]))) = some (0, .bytes [0xAB]) := by decide

/-- Vectors S2 and A: the byte order acts, the word order does not. -/
theorem test_xfwd16 :
    response (exec (.xfwd16 .little .big) (operand (.bytes [0x01, 0x02]))) = some (0, .bytes [0x02, 0x01])
      ∧ response (exec (.xfwd16 .big .little) (operand (.bytes [0x01, 0x02]))) = some (0, .bytes [0x01, 0x02]) := by decide

/-- Vector A: NATIVE reads as BIG. -/
theorem test_xfwd32 :
    response (exec (.xfwd32 .little .big) (operand (.bytes [0x01, 0x02, 0x03, 0x04])))
        = some (0, .bytes [0x02, 0x01, 0x04, 0x03])
      ∧ response (exec (.xfwd32 .native .little) (operand (.bytes [0x01, 0x02, 0x03, 0x04])))
          = some (0, .bytes [0x03, 0x04, 0x01, 0x02]) := by decide

/-- Vector A. -/
theorem test_xfwd64 :
    response (exec (.xfwd64 .big .little) (operand (.bytes [0x01, 0x02, 0x03, 0x04, 0x05, 0x06, 0x07, 0x08])))
        = some (0, .bytes [0x07, 0x08, 0x05, 0x06, 0x03, 0x04, 0x01, 0x02]) := by decide

/-- R95. -/
theorem test_xinv8 :
    response (exec (.xinv8 .big .big) (operand (.bytes [0x7F]))) = some (0, .bytes [0x7F]) := by decide

/-- R96, by hand. -/
theorem test_xinv16 :
    response (exec (.xinv16 .little .native) (operand (.bytes [0x02, 0x01]))) = some (0, .bytes [0x01, 0x02]) := by decide

/-- Vector A. -/
theorem test_xinv32 :
    response (exec (.xinv32 .big .little) (operand (.bytes [0x03, 0x04, 0x01, 0x02])))
        = some (0, .bytes [0x01, 0x02, 0x03, 0x04]) := by decide

/-- Vector A. -/
theorem test_xinv64 :
    response (exec (.xinv64 .little .big) (operand (.bytes [0x02, 0x01, 0x04, 0x03, 0x06, 0x05, 0x08, 0x07])))
        = some (0, .bytes [0x01, 0x02, 0x03, 0x04, 0x05, 0x06, 0x07, 0x08]) := by decide

/-- Vector A: STATUS 1 and the code in `errlog`. -/
theorem test_xfwd32_wrong_length :
    (nextOf (exec (.xfwd32 .big .little) (operand (.bytes [0x01, 0x02])))).map (fun t => (t.status, t.dout, t.errlog))
      = some (1, .none, [1]) := by decide

/-- Vector S4, N = 10. -/
theorem test_pack :
    response (exec .pack (operand (.bits [true, true, false, false, false, false, false, false, false, true])))
        = some (0, .bytes [0x03, 0x02]) := by decide

/-- Vector C. -/
theorem test_unpack :
    response (exec .unpack (operand (.bytes [0x80])))
        = some (0, .bits [false, false, false, false, false, false, false, true]) := by decide

/-- Vector B: B_INIT with the seed AA. -/
theorem test_bInit :
    (nextOf (exec (.bInit .big .big false) (operand (.bytes [0xAA])))).map (fun t => (t.enc, t.status, t.dout))
      = some (⟨.ready, .big, .big, false, [[0xAA]]⟩, 0, .none) := by decide

/-- Vector B: the earlier session is kept. -/
theorem test_bInit_malformed :
    (nextOf (exec (.bInit .big .big false) (builder .little .big true [[0xAA]] .malformed))).map (fun t => (t.enc, t.status))
      = some (⟨.ready, .little, .big, true, [[0xAA]]⟩, 1) := by decide

/-- Vector B, the scalar adds, behind a first chunk. -/
theorem test_bAddU8 :
    flatOf (exec .bAddU8 (builder .little .little false [[0x99]] (.scalar .w8 0x12#8))) = some [0x99, 0x12] := by decide

/-- R107, by hand. -/
theorem test_bAddI8 :
    flatOf (exec .bAddI8 (builder .big .big false [[0x99]] (.scalar .w8 0x80#8))) = some [0x99, 0x80] := by decide

/-- Vector S2, behind a first chunk. -/
theorem test_bAddU16 :
    flatOf (exec .bAddU16 (builder .little .big false [[0x99]] (.scalar .w16 0x102#16))) = some [0x99, 0x02, 0x01] := by decide

/-- Vector B, the scalar adds, behind a first chunk. -/
theorem test_bAddI16 :
    flatOf (exec .bAddI16 (builder .big .little false [[0x99]] (.scalar .w16 0xFFFE#16))) = some [0x99, 0xFF, 0xFE] := by decide

/-- Vector B, the scalar adds, behind a first chunk. -/
theorem test_bAddF16 :
    flatOf (exec .bAddF16 (builder .little .big false [[0x99]] (.scalar .w16 0x3C00#16))) = some [0x99, 0x00, 0x3C] := by decide

/-- Vector S3, behind a first chunk. -/
theorem test_bAddU32 :
    flatOf (exec .bAddU32 (builder .big .little false [[0x99]] (.scalar .w32 0x1020304#32))) = some [0x99, 0x03, 0x04, 0x01, 0x02] := by decide

/-- Vector B, the scalar adds, behind a first chunk. -/
theorem test_bAddI32 :
    flatOf (exec .bAddI32 (builder .little .little false [[0x99]] (.scalar .w32 0xFFFFFFFE#32))) = some [0x99, 0xFE, 0xFF, 0xFF, 0xFF] := by decide

/-- Vector B, the scalar adds, behind a first chunk. -/
theorem test_bAddF32 :
    flatOf (exec .bAddF32 (builder .big .little false [[0x99]] (.scalar .w32 0x3F800000#32))) = some [0x99, 0x00, 0x00, 0x3F, 0x80] := by decide

/-- Vector B, the scalar adds, behind a first chunk. -/
theorem test_bAddU64 :
    flatOf (exec .bAddU64 (builder .little .big false [[0x99]] (.scalar .w64 0x102030405060708#64))) = some [0x99, 0x02, 0x01, 0x04, 0x03, 0x06, 0x05, 0x08, 0x07] := by decide

/-- Vector B, the scalar adds, behind a first chunk. -/
theorem test_bAddI64 :
    flatOf (exec .bAddI64 (builder .big .little false [[0x99]] (.scalar .w64 0x8000000000000000#64))) = some [0x99, 0x00, 0x00, 0x00, 0x00, 0x00, 0x00, 0x80, 0x00] := by decide

/-- Vector B, the scalar adds, behind a first chunk. -/
theorem test_bAddF64 :
    flatOf (exec .bAddF64 (builder .little .little false [[0x99]] (.scalar .w64 0x3FF0000000000000#64))) = some [0x99, 0x00, 0x00, 0x00, 0x00, 0x00, 0x00, 0xF0, 0x3F] := by decide

/-- Vector B: a 16-bit operand. -/
theorem test_bAddU32_wrong_width :
    response (exec .bAddU32 (builder .big .big false [] (.scalar .w16 0x0102#16))) = some (1, .none) := by decide

/-- R117. -/
theorem test_bAddStr :
    flatOf (exec .bAddStr (builder .little .little false [[0xAA]] (.bytes [0x41, 0x42]))) = some [0xAA, 0x41, 0x42] := by decide

/-- Vector B: nine bits. -/
theorem test_bAddBits :
    flatOf (exec .bAddBits (builder .big .big false [[0xAA, 0x01, 0x02]] (.bits [true, true, true, true, true, true, true, true, true]))) = some [0xAA, 0x01, 0x02, 0xFF, 0x01] := by decide

/-- R120. -/
theorem test_bEncode :
    response (exec .bEncode (builder .big .little false [[0x01, 0x02], [0x03, 0x04, 0x01, 0x02], [0xFF]] .none))
      = some (0, .bytes [0x01, 0x02, 0x03, 0x04, 0x01, 0x02, 0xFF]) := by decide

/-- Vector S6: the odd pad. -/
theorem test_bBuild :
    response (exec .bBuild (builder .big .big false [[0xAB]] .none)) = some (0, .pairs [(0xAB, 0x00)]) := by decide

/-- The repack vectors of B. -/
theorem test_bToRegs :
    response (exec .bToRegs (builder .little .big true [[0x02, 0x01]] .none)) = some (0, .regs [0x0102])
      ∧ response (exec .bToRegs (builder .little .big false [[0x02, 0x01]] .none)) = some (0, .regs [0x0201]) := by decide

/-- Vector S5. -/
theorem test_bToCoils :
    response (exec .bToCoils (builder .big .big false [[0x01, 0x02]] .none))
     
          = some (0, .bits [false, false, false, false, false, false, false, true, false, false, false, false, false, false, true, false]) := by decide

/-- Vector B: the orders are kept. -/
theorem test_bReset :
    (nextOf (exec .bReset (builder .little .big true [[0x01]] .none))).map (fun t => (t.enc, t.status))
      = some (⟨.ready, .little, .big, true, []⟩, 0) := by decide

/-- Vector E: P_ENC_CAP = 2 and flat [01 02]. -/
theorem test_bAddU8_over_capacity :
    (nextOf (exec .bAddU8 (bounded 2 (builder .big .big false [[0x01, 0x02]] (.scalar .w8 0x03#8))))).map
      (fun t => (t.status, t.enc.flat)) = some (6, [0x01, 0x02]) := by decide

/-- R141. -/
theorem test_dInitRaw :
    decOf (exec (.dInitRaw .big .big) (operand (.bytes [0xAB]))) = some ⟨.ready, .big, .big, [0xAB], 0⟩ := by decide

/-- Vector E: P_DEC_CAP = 2. -/
theorem test_dInitRaw_over_capacity :
    (nextOf (exec (.dInitRaw .big .big) (bounded 2 (operand (.bytes [0x01, 0x02, 0x03]))))).map (fun t => (t.status, t.dec.state))
      = some (6, .aborted) := by decide

/-- Vector D. -/
theorem test_dFromRegs :
    decOf (exec (.dFromRegs .little .little) (operand (.regs [0x0201, 0x0403, 0xAA55])))
      = some ⟨.ready, .little, .little, [0x02, 0x01, 0x04, 0x03, 0xAA, 0x55], 0⟩ := by decide

/-- Vector S8. -/
theorem test_dFromRegs_malformed :
    (nextOf (exec (.dFromRegs .big .big) (operand .malformed))).map (fun t => (t.status, t.dec.state))
        = some (1, .aborted) := by decide

/-- Vectors D and S9: WO = 3 is ignored, and the pad leads. -/
theorem test_dFromCoils :
    decOf (exec (.dFromCoils .big 3) (operand (.bits [true, false, true]))) = some ⟨.ready, .big, .big, [0x05], 0⟩
      ∧ decOf (exec (.dFromCoils .big 0) (operand (.bits [true, false, false, false, false, false, false, false, false]))) = some ⟨.ready, .big, .big, [0x01, 0x00], 0⟩ := by decide

/-- Vector D, the typed decodes. -/
theorem test_dU8 :
    (nextOf (exec .dU8 (decoder .big .big [0xFF] 0 .none))).map (fun t => (t.dout, t.dec.cur))
      = some (.scalar .w8 0xFF#8, 1) := by decide

/-- Vector D, the typed decodes. -/
theorem test_dI8 :
    (nextOf (exec .dI8 (decoder .big .big [0xFF, 0xFE, 0x80] 2 .none))).map (fun t => (t.dout, t.dec.cur))
      = some (.scalar .w8 0x80#8, 3) := by decide

/-- Vector D, the typed decodes. -/
theorem test_dU16 :
    (nextOf (exec .dU16 (decoder .big .big [0x11, 0x22, 0x33] 1 .none))).map (fun t => (t.dout, t.dec.cur))
      = some (.scalar .w16 0x2233#16, 3) := by decide

/-- Vector D, the typed decodes. -/
theorem test_dI16 :
    (nextOf (exec .dI16 (decoder .big .big [0xFF, 0xFE, 0x80] 0 .none))).map (fun t => (t.dout, t.dec.cur))
      = some (.scalar .w16 0xFFFE#16, 2) := by decide

/-- Vector D, the typed decodes. -/
theorem test_dF16 :
    (nextOf (exec .dF16 (decoder .little .big [0x00, 0x3C] 0 .none))).map (fun t => (t.dout, t.dec.cur))
      = some (.scalar .w16 0x3C00#16, 2) := by decide

/-- Vector D, the typed decodes. -/
theorem test_dU32 :
    (nextOf (exec .dU32 (decoder .big .little [0x03, 0x04, 0x01, 0x02] 0 .none))).map (fun t => (t.dout, t.dec.cur))
      = some (.scalar .w32 0x1020304#32, 4) := by decide

/-- Vector D, the typed decodes. -/
theorem test_dI32 :
    (nextOf (exec .dI32 (decoder .little .little [0xFE, 0xFF, 0xFF, 0xFF] 0 .none))).map (fun t => (t.dout, t.dec.cur))
      = some (.scalar .w32 0xFFFFFFFE#32, 4) := by decide

/-- Vector D, the typed decodes. -/
theorem test_dF32 :
    (nextOf (exec .dF32 (decoder .big .little [0x00, 0x00, 0x3F, 0x80] 0 .none))).map (fun t => (t.dout, t.dec.cur))
      = some (.scalar .w32 0x3F800000#32, 4) := by decide

/-- Vector D, the typed decodes. -/
theorem test_dU64 :
    (nextOf (exec .dU64 (decoder .little .big [0x02, 0x01, 0x04, 0x03, 0x06, 0x05, 0x08, 0x07] 0 .none))).map (fun t => (t.dout, t.dec.cur))
      = some (.scalar .w64 0x102030405060708#64, 8) := by decide

/-- Vector D, the typed decodes. -/
theorem test_dI64 :
    (nextOf (exec .dI64 (decoder .big .little [0x00, 0x00, 0x00, 0x00, 0x00, 0x00, 0x80, 0x00] 0 .none))).map (fun t => (t.dout, t.dec.cur))
      = some (.scalar .w64 0x8000000000000000#64, 8) := by decide

/-- Vector D, the typed decodes. -/
theorem test_dF64 :
    (nextOf (exec .dF64 (decoder .little .little [0x00, 0x00, 0x00, 0x00, 0x00, 0x00, 0xF0, 0x3F] 0 .none))).map (fun t => (t.dout, t.dec.cur))
      = some (.scalar .w64 0x3FF0000000000000#64, 8) := by decide

/-- Vector S7. -/
theorem test_dU16_truncated :
    (nextOf (exec .dU16 (decoder .big .big [0xAB] 0 .none))).map (fun t => (t.status, t.dout, t.dec.state, t.dec.cur, t.errlog))
      = some (2, .none, .aborted, 0, [2]) := by decide

/-- R161. -/
theorem test_dBits :
    (nextOf (exec (.dBits 1) (decoder .little .big [0x05] 0 .none))).map (fun t => (t.dout, t.dec.cur))
      = some (.bits [true, false, true, false, false, false, false, false], 1) := by decide

/-- Vector D. -/
theorem test_dBits_past_the_end :
    (nextOf (exec (.dBits 1) (decoder .little .little [0xAA, 0x55] 2 .none))).map (fun t => (t.status, t.dec.state, t.dec.cur))
      = some (2, .aborted, 2) := by decide

/-- R162; a zero count at the end succeeds (vector D). -/
theorem test_dStr :
    response (exec (.dStr 2) (decoder .big .big [0x41, 0x42, 0x43] 0 .none)) = some (0, .bytes [0x41, 0x42])
      ∧ response (exec (.dStr 0) (decoder .big .big [0x41, 0x42, 0x43] 3 .none)) = some (0, .bytes []) := by decide

/-- R163: to the end of a 6-byte buffer, and past it. -/
theorem test_dSkip :
    (nextOf (exec (.dSkip 2) (decoder .big .big [0, 0, 0, 0, 0, 0] 4 .none))).map (fun t => (t.status, t.dec.cur))
        = some (0, 6)
      ∧ (nextOf (exec (.dSkip 1) (decoder .big .big [0, 0, 0, 0, 0, 0] 6 .none))).map (fun t => (t.status, t.dec.cur))
          = some (2, 6) := by decide

/-- Vector D. -/
theorem test_dReset :
    (nextOf (exec .dReset (decoder .little .little [0x02, 0x01] 2 .none))).map (fun t => (t.status, t.dec.state, t.dec.cur))
      = some (0, .ready, 0) := by decide

/-- Vector D: a reset does not revive an aborted session. -/
theorem test_dReset_aborted :
    response (exec .dReset (abortedDecoder .none)) = some (5, .none) := by decide

/-! ### The step -/

/-- Vector B, first row: the step performs the pending transaction, here on a channel that is not constructed. -/
theorem test_step_notConstructed :
    (nextOf (step (issuing [⟨0x11000000, .scalar .w8 0x01#8⟩] State.reset))).map (fun t => (t.status, t.errlog, t.pos, t.pending))
      = some (4, [4], 1, []) := by decide

/-- Vector E: IllegalCommand comes before NotConstructed. -/
theorem test_step_illegal :
    (nextOf (step (issuing [⟨0x33FF0000, .none⟩] State.reset))).map (fun t => (t.status, t.errlog, t.pos))
        = some (3, [3], 1) := by
  decide

/-- R105 through `withFetchWord`: the word placed on a reset state is the next command, with DIN NONE. -/
theorem test_withFetchWord :
    (nextOf (step (State.reset.withFetchWord 32 0x10600000))).map (fun t => (t.cmd, t.enc.state, t.enc.wo, t.status))
      = some (0x10600000, .ready, .little, 0) := by decide

/-- R81: D_BITS without a count assembles with COUNT 1; `XFWD 32` is XFWD32; R80's `D_SKIP #2`. -/
theorem test_assemble :
    assemble ⟨.plain "D_BITS", none, none, none, none, .none⟩ = some ⟨0x3E000001, .none⟩
      ∧ assemble ⟨.xfwd .w32, some .little, some .big, none, none, .bytes [0x01]⟩ = some ⟨0x03900000, .bytes [0x01]⟩
      ∧ assemble ⟨.plain "D_SKIP", none, none, none, some 2, .none⟩ = some ⟨0x40000002, .none⟩ := by decide

/-- R11, by hand: −2 is 0xFFFE at 16 bits. -/
theorem test_signedView : signedView (0xFFFE#16) = -2 ∧ signedPattern 16 (-2) = 0xFFFE := by decide

/-! ### Witnesses: the hypotheses of every obligation can be met -/

/-- An encoder with a session, and one capacity that just holds two more bytes. -/
def roomForTwo : State := { builder .little .big false [[0x01]] .none with cfg := ⟨some 3, some 3⟩ }

theorem withinCapacity_of_fits {cap : Option Nat} {n : Nat} (h : fitsCapacity cap n = true) : WithinCapacity cap n :=
  (fitsCapacity_iff cap n).mp h

theorem witness_DecodeOfEncodedCommandIsTheCommand :
    (Instr.dSkip 65535).wf = true ∧ (Instr.dStr 0).wf = true ∧ (Instr.bInit .little .native true).wf = true := by decide

theorem witness_LegalWordIsTheEncodingOfItsCommand :
    decodeCmd 0x32700000 = .ok (.dFromCoils .big 3) ∧ decodeCmd 0x4000FFFF = .ok (.dSkip 65535) := ⟨rfl, rfl⟩

theorem witness_AssembledLineIsALegalTransaction :
    ∃ t, assemble ⟨.plain "B_INIT", some .big, some .little, some true, none, .bytes [0xAA]⟩ = some t ∧ t.cmd = 0x10680000 := by
  decide

theorem witness_StepRunsTheDecodedCommand :
    (issuing [⟨0x10600000, .none⟩] State.reset).pending = [⟨0x10600000, .none⟩]
      ∧ decodeCmd 0x10600000 = .ok (.bInit .big .little false) := ⟨rfl, rfl⟩

theorem witness_IllegalWordRaisesIllegalCommand :
    (issuing [⟨0x00000000, .none⟩] State.reset).pending = [⟨0x00000000, .none⟩] ∧ decodeCmd 0x00000000 = .error .opcode :=
  ⟨rfl, rfl⟩

theorem witness_BlockWaitsWhileNoCommandIsPending : State.reset.pending = [] := rfl

theorem witness_EveryCommandAdvancesThePositionByOne :
    (issuing [⟨0x00000000, .none⟩] State.reset).pending = ⟨0x00000000, .none⟩ :: [] := rfl

theorem witness_EachFailedCommandAppendsExactlyItsCode : (issuing [⟨0x33000000, .none⟩] State.reset).pending ≠ [] := by decide

theorem witness_RunWithUnchangedErrorLogAnsweredOkThroughout :
    ∃ t, Reaches 1 (issuing [⟨0x10600000, .none⟩] State.reset) t ∧ t.errlog = [] ∧ t.status = 0 ∧ t.enc.state = .ready :=
  ⟨_, rfl, by decide⟩

theorem witness_EveryStepKeepsInv :
    (issuing [⟨0x35000000, .none⟩] (bounded 6 (decoder .little .little [0x02, 0x01] 0 .none))).Inv
      ∧ ∃ t, step (issuing [⟨0x35000000, .none⟩] (bounded 6 (decoder .little .little [0x02, 0x01] 0 .none))) = .next t
          ∧ t.dec.cur = 2 :=
  ⟨⟨by decide, by decide, by decide, by decide, by decide⟩, _, rfl, by decide⟩

theorem witness_EncoderConfigurationIsWrittenOnlyBySuccessfulBInit :
    ∃ t, exec (.bInit .little .big true) (operand .none) = .next t ∧ ¬SameEncoderConfig (operand .none) t :=
  ⟨_, rfl, by rintro ⟨h, -⟩; exact absurd h (by decide)⟩

theorem witness_DecoderOrdersAndBufferChangeOnlyAtConstruction :
    ∃ t, exec (.dInitRaw .little .big) (operand (.bytes [0xAB])) = .next t
      ∧ ¬(SameDecoderConfig (operand (.bytes [0xAB])) t ∧ SameDecoderBytes (operand (.bytes [0xAB])) t) :=
  ⟨_, rfl, by rintro ⟨⟨h, -⟩, -⟩; exact absurd h (by decide)⟩

/-- One clause each: a read to the end of the buffer, and D_RESET. -/
theorem witness_CursorMovesByTheBytesTakenOrRewinds :
    (∃ t, exec .dU16 (decoder .big .big [0x01, 0x02] 0 .none) = .next t ∧ Instr.dU16.kind ≠ .decoderConstruct ∧ t.dec.cur ≠ 0)
      ∧ ∃ t, exec .dReset (decoder .big .big [0x01, 0x02] 2 .none) = .next t ∧ Instr.dReset.kind ≠ .decoderConstruct
          ∧ t.dec.cur ≠ 2 :=
  ⟨⟨_, rfl, by decide, by decide⟩, _, rfl, by decide, by decide⟩

theorem witness_AbortedSessionAnswersSessionAborted :
    (Instr.dReset.kind.needsDecoder = true ∧ (abortedDecoder .none).dec.state = .aborted)
      ∧ ∃ t, exec (.dInitRaw .big .big) (abortedDecoder (.bytes [0x01])) = .next t
          ∧ (abortedDecoder (.bytes [0x01])).dec.state = .aborted ∧ t.dec ≠ (abortedDecoder (.bytes [0x01])).dec :=
  ⟨by decide, _, rfl, by decide, by decide⟩

theorem witness_UnconstructedChannelAnswersNotConstructed :
    (Instr.bEncode.kind.needsEncoder = true ∧ State.reset.enc.state = .none)
      ∧ (Instr.dU8.kind.needsDecoder = true ∧ State.reset.dec.state = .none) := by decide

theorem witness_StatelessCommandsDependOnDinAlone :
    Instr.pack.kind = .stateless ∧ (operand (.bits [true])).din = (abortedDecoder (.bits [true])).din
      ∧ (∃ t, exec .pack (operand (.bits [true])) = .next t) ∧ ∃ t, exec .pack (abortedDecoder (.bits [true])) = .next t :=
  ⟨by decide, by decide, ⟨_, rfl⟩, _, rfl⟩

/-- A failure that aborts and one that does not. -/
theorem witness_FailedCommandChangesOnlyTheResponseAndTheAbort :
    (∃ t, exec .dU16 (decoder .big .big [0xAB] 0 .none) = .next t ∧ t.status ≠ 0 ∧ t.dec.state = .aborted)
      ∧ ∃ t, exec .pack (operand .none) = .next t ∧ t.status ≠ 0 ∧ t.dec.state = .none :=
  ⟨⟨_, rfl, by decide⟩, _, rfl, by decide⟩

/-- A state for every branch of the priority order: illegal word, NotConstructed, SessionAborted, InvalidInput, TruncatedBuffer,
CapacityExceeded and OK. -/
theorem witness_FirstErrorInPriorityOrderIsReported :
    decodeCmd 0x33FF0000 = .error .reserved
      ∧ response (exec .dU8 (operand .malformed)) = some (4, .none)
      ∧ response (exec .dU8 (abortedDecoder .malformed)) = some (5, .none)
      ∧ response (exec .dU8 (decoder .big .big [] 0 .malformed)) = some (1, .none)
      ∧ response (exec .dU8 (decoder .big .big [] 0 .none)) = some (2, .none)
      ∧ response (exec .bAddStr (bounded 1 (builder .big .big false [] (.bytes [0x01, 0x02])))) = some (6, .none)
      ∧ response (exec .bAddStr (bounded 2 (builder .big .big false [] (.bytes [0x01, 0x02])))) = some (0, .none) :=
  ⟨rfl, by decide, by decide, by decide, by decide, by decide, by decide⟩

/-- A decoder constructor, a builder command, a decoder command and a stateless command. -/
theorem witness_RejectedOperandRaisesInvalidInput :
    (operand .malformed).din.hasForm (Instr.dFromRegs .big .big).operandForm = false
      ∧ ((builder .big .big false [] .none).din.hasForm Instr.bAddU8.operandForm = false
          ∧ (builder .big .big false [] .none).enc.state = .ready)
      ∧ ((decoder .big .big [] 0 (.bits [])).din.hasForm Instr.dReset.operandForm = false
          ∧ (decoder .big .big [] 0 (.bits [])).dec.state = .ready)
      ∧ (operand (.bytes [0x01])).din.hasForm (Instr.xfwd16 .big .big).operandForm = false := by decide

theorem witness_ReadPastTheEndRaisesTruncatedBuffer :
    (Instr.dSkip 3).kind = .decoderTake 3 ∧ (decoder .big .big [0x01, 0x02] 0 .none).dec.state = .ready
      ∧ (decoder .big .big [0x01, 0x02] 0 .none).din = .none
      ∧ (decoder .big .big [0x01, 0x02] 0 .none).dec.buf.length < (decoder .big .big [0x01, 0x02] 0 .none).dec.cur + 3 := by
  decide

/-- Every clause at the first size that does not fit. -/
theorem witness_OverfullStoreRaisesCapacityExceeded :
    (∃ s : State, (Instr.bAddU16, Width.w16) ∈ scalarAdds ∧ s.enc.state = .ready ∧ s.din = .scalar .w16 0x0102#16
        ∧ s.cfg.encCap = some 2 ∧ 2 < s.enc.flat.length + Width.w16.bytes)
      ∧ (∃ s : State, s.enc.state = .ready ∧ s.din = .bytes [0x01, 0x02] ∧ s.cfg.encCap = some 2
        ∧ 2 < s.enc.flat.length + [0x01, 0x02].length)
      ∧ (∃ s : State, s.enc.state = .ready ∧ s.din = .bits [true] ∧ s.cfg.encCap = some 1
        ∧ 1 < s.enc.flat.length + ([true].length + 7) / 8)
      ∧ (∃ s : State, s.din = .bytes [0x01] ∧ s.cfg.encCap = some 0 ∧ s.cfg.decCap = some 0 ∧ 0 < [0x01].length)
      ∧ (∃ s : State, s.din = .regs [0x0102] ∧ s.cfg.decCap = some 1 ∧ 1 < 2 * [0x0102].length)
      ∧ ∃ s : State, s.din = .bits [true] ∧ s.cfg.decCap = some 0 ∧ 0 < ([true].length + 7) / 8 :=
  ⟨⟨bounded 2 (builder .big .big false [[0x01]] (.scalar .w16 0x0102#16)), by decide⟩,
    ⟨bounded 2 (builder .big .big false [[0x01]] (.bytes [0x01, 0x02])), by decide⟩,
    ⟨bounded 1 (builder .big .big false [[0x01]] (.bits [true])), by decide⟩,
    ⟨bounded 0 (operand (.bytes [0x01])), by decide⟩,
    ⟨bounded 1 (operand (.regs [0x0102])), by decide⟩,
    ⟨bounded 0 (operand (.bits [true])), by decide⟩⟩

theorem witness_SuccessfulCommandAnswersItsResultForm :
    ∃ t, exec (.dBits 1) (decoder .big .big [0x05] 0 .none) = .next t ∧ t.status = 0 := ⟨_, rfl, by decide⟩

theorem witness_ForwardTransformCommandsAnswerTheTransform :
    ∀ x ∈ [[0xAB], [0x01, 0x02], [0x01, 0x02, 0x03, 0x04], ([1, 2, 3, 4, 5, 6, 7, 8] : List Byte)],
      (operand (.bytes x)).din = .bytes x ∧ (x.length = 1 ∨ x.length = 2 ∨ x.length = 4 ∨ x.length = 8) := by decide

theorem witness_InverseTransformCommandsUndoTheTransform :
    ∀ y ∈ [[0xAB], [0x02, 0x01], [0x03, 0x04, 0x01, 0x02], ([7, 8, 5, 6, 3, 4, 1, 2] : List Byte)],
      (operand (.bytes y)).din = .bytes y ∧ (y.length = 1 ∨ y.length = 2 ∨ y.length = 4 ∨ y.length = 8) := by decide

theorem witness_PackAndUnpackAnswerTheCodec :
    (operand (.bits [true, false, true])).din = .bits [true, false, true] ∧ (operand (.bytes [])).din = .bytes [] := ⟨rfl, rfl⟩

/-- The largest seed that fits. -/
theorem witness_BInitOpensAnEncoderSession :
    (operand .none).din = .none
      ∧ ((bounded 1 (operand (.bytes [0xAA]))).din = .bytes [0xAA]
        ∧ WithinCapacity (bounded 1 (operand (.bytes [0xAA]))).cfg.encCap 1) :=
  ⟨rfl, rfl, withinCapacity_of_fits (by decide)⟩

/-- The largest chunk that fits. -/
theorem witness_ScalarAddsAppendTheTransformedEncoding :
    (Instr.bAddF16, Width.w16) ∈ scalarAdds ∧ ({ roomForTwo with din := .scalar .w16 0x3C00#16 } : State).enc.state = .ready
      ∧ ({ roomForTwo with din := .scalar .w16 0x3C00#16 } : State).din = .scalar .w16 0x3C00#16
      ∧ WithinCapacity roomForTwo.cfg.encCap (roomForTwo.enc.flat.length + Width.w16.bytes) :=
  ⟨by decide, by decide, rfl, withinCapacity_of_fits (by decide)⟩

/-- Two bytes, and nine bits that need two bytes, where exactly two fit. -/
theorem witness_StringAndBitAddsAppendTheirBytes :
    (∃ s : State, s.enc.state = .ready ∧ s.din = .bytes [0x41, 0x42]
        ∧ WithinCapacity s.cfg.encCap (s.enc.flat.length + [0x41, 0x42].length))
      ∧ ∃ s : State, s.enc.state = .ready ∧ s.din = .bits [true, true, true, true, true, true, true, true, true]
          ∧ WithinCapacity s.cfg.encCap
            (s.enc.flat.length + ([true, true, true, true, true, true, true, true, true].length + 7) / 8) :=
  ⟨⟨{ roomForTwo with din := .bytes [0x41, 0x42] }, by decide, rfl, withinCapacity_of_fits (by decide)⟩,
    { roomForTwo with din := .bits [true, true, true, true, true, true, true, true, true] }, by decide, rfl,
    withinCapacity_of_fits (by decide)⟩

theorem witness_ConversionsAnswerTheAccumulator : roomForTwo.enc.state = .ready ∧ roomForTwo.din = .none := by decide

theorem witness_BResetEmptiesTheAccumulator :
    roomForTwo.enc.state = .ready ∧ roomForTwo.din = .none ∧ roomForTwo.enc.chunks ≠ [] := by decide

/-- Every constructor at the largest buffer that fits. -/
theorem witness_DecoderConstructorsOpenASession :
    ((bounded 2 (operand (.bytes [0x01, 0x02]))).din = .bytes [0x01, 0x02]
        ∧ WithinCapacity (bounded 2 (operand (.bytes [0x01, 0x02]))).cfg.decCap [0x01, 0x02].length)
      ∧ ((bounded 2 (operand (.regs [0x0102]))).din = .regs [0x0102]
        ∧ WithinCapacity (bounded 2 (operand (.regs [0x0102]))).cfg.decCap (2 * [0x0102].length))
      ∧ ((bounded 1 (operand (.bits [true]))).din = .bits [true]
        ∧ WithinCapacity (bounded 1 (operand (.bits [true]))).cfg.decCap (([true].length + 7) / 8)) :=
  ⟨⟨rfl, withinCapacity_of_fits (by decide)⟩, ⟨rfl, withinCapacity_of_fits (by decide)⟩, rfl, withinCapacity_of_fits (by decide)⟩

/-- A read that ends exactly at the end of the buffer. -/
theorem witness_TypedDecodesAnswerTheValueAtTheCursor :
    (Instr.dF32, Width.w32) ∈ typedDecodes ∧ (decoder .big .little [0, 0, 0x3F, 0x80] 0 .none).dec.state = .ready
      ∧ (decoder .big .little [0, 0, 0x3F, 0x80] 0 .none).din = .none
      ∧ (decoder .big .little [0, 0, 0x3F, 0x80] 0 .none).dec.cur + Width.w32.bytes
          ≤ (decoder .big .little [0, 0, 0x3F, 0x80] 0 .none).dec.buf.length := by decide

/-- The whole buffer, and no byte at its end. -/
theorem witness_CountedReadsTakeCountBytes :
    (∃ s : State, s.dec.state = .ready ∧ s.din = .none ∧ s.dec.cur + 2 ≤ s.dec.buf.length ∧ s.dec.buf.length = 2)
      ∧ ∃ s : State, s.dec.state = .ready ∧ s.din = .none ∧ s.dec.cur + 0 ≤ s.dec.buf.length ∧ s.dec.cur = 2 :=
  ⟨⟨decoder .big .big [0x41, 0x42] 0 .none, by decide⟩, decoder .big .big [0x41, 0x42] 2 .none, by decide⟩

theorem witness_DResetRewindsTheCursor :
    (decoder .big .big [0x41, 0x42] 2 .none).dec.state = .ready ∧ (decoder .big .big [0x41, 0x42] 2 .none).din = .none := by
  decide

theorem witness_SuccessiveReadsJoin :
    (decoder .big .big [0x41, 0x42, 0x43] 0 .none).dec.state = .ready ∧ (decoder .big .big [0x41, 0x42, 0x43] 0 .none).din = .none
      ∧ (decoder .big .big [0x41, 0x42, 0x43] 0 .none).dec.cur + (1 + 2)
          ≤ (decoder .big .big [0x41, 0x42, 0x43] 0 .none).dec.buf.length := by decide

/-- An add of each shape that stores, and one that fails. -/
theorem witness_FrameOfTheAdds :
    (∃ s t, exec .bAddU16 s = .next t ∧ t.status = 0 ∧ (Instr.bAddU16, Width.w16) ∈ scalarAdds
        ∧ s.din = .scalar .w16 0x0203#16 ∧ Instr.bAddU16.kind = .encoderAdd ∧ s.enc.flat ≠ [])
      ∧ (∃ s t, exec .bAddStr s = .next t ∧ t.status = 0 ∧ s.din = .bytes [0x02] ∧ Instr.bAddStr.kind = .encoderAdd)
      ∧ (∃ s t, exec .bAddBits s = .next t ∧ t.status = 0 ∧ s.din = .bits [true] ∧ Instr.bAddBits.kind = .encoderAdd)
      ∧ ∃ s t, exec .bAddBits s = .next t ∧ t.status ≠ 0 :=
  ⟨⟨builder .big .big false [[0x01]] (.scalar .w16 0x0203#16), _, rfl, by decide⟩,
    ⟨builder .big .big false [[0x01]] (.bytes [0x02]), _, rfl, by decide⟩,
    ⟨builder .big .big false [[0x01]] (.bits [true]), _, rfl, by decide⟩,
    builder .big .big false [[0x01]] .none, _, rfl, by decide⟩

theorem witness_FrameOfTheCommandsThatStoreNothing :
    (∃ t, exec .pack (operand (.bits [])) = .next t ∧ Instr.pack.kind = .stateless)
      ∧ (∃ t, exec .bToRegs (builder .big .big false [[0x01]] .none) = .next t ∧ Instr.bToRegs.kind = .encoderRead)
      ∧ ∃ t, exec .dU8 (decoder .big .big [0x01] 0 .none) = .next t ∧ Instr.dU8.kind.needsDecoder = true :=
  ⟨⟨_, rfl, by decide⟩, ⟨_, rfl, by decide⟩, _, rfl, by decide⟩

theorem witness_FrameOfTheConstructorsAndBReset :
    (∃ t, exec (.bInit .big .big false) (operand (.bytes [0xAA])) = .next t ∧ t.status = 0
        ∧ (Instr.bInit .big .big false).kind = .encoderConstruct)
      ∧ (∃ t, exec .bReset (builder .big .big false [[0x01]] .none) = .next t ∧ t.status = 0 ∧ Instr.bReset.kind = .encoderClear)
      ∧ ∃ t, exec (.dFromRegs .big .big) (operand (.regs [])) = .next t
          ∧ (Instr.dFromRegs .big .big).kind = .decoderConstruct :=
  ⟨⟨_, rfl, by decide⟩, ⟨_, rfl, by decide⟩, _, rfl, by decide⟩

theorem witness_CanonicalEncodingIsBigEndianAndInvertible : 3 < 4 ∧ 0xFFFFFFFF < 256 ^ 4 := by decide

/-- The last byte of the widest transform, and width 8. -/
theorem witness_TransformMovesBytesByTheFormula :
    ([1, 2, 3, 4, 5, 6, 7, 8] : List Byte).length = Width.w64.bytes ∧ Width.w64 ≠ .w8 ∧ 7 < Width.w64.bytes
      ∧ ([1] : List Byte).length = Width.w8.bytes := by decide

theorem witness_TransformSpecialCases :
    ([1, 2] : List Byte).length = 2 ∧ ([1, 2, 3, 4] : List Byte).length = Width.w32.bytes ∧ Endian.native ≠ .little
      ∧ Endian.big ≠ .little := by decide

theorem witness_TransformIsItsOwnInverse : ([1, 2, 3, 4] : List Byte).length = Width.w32.bytes := by decide

theorem witness_EveryScalarEncodingIsTheTransform : ([1, 2] : List Byte).length = Width.w16.bytes := by decide

/-- The last bit of the last byte of a partial pack. -/
theorem witness_PackPutsBooleansLsbFirstWithZeroPadding :
    1 < ([true, true, true, true, true, true, true, true, true].length + 7) / 8 ∧ 7 < 8 := by decide

theorem witness_UnpackListsEightBitsOfEveryByte : ([0x80] : List Byte)[0]? = some 0x80 ∧ 7 < 8 := by decide

theorem witness_BuildPairsTheEvenPaddedBytes :
    0 < (build [0xAB]).length ∧ ∃ t, exec .bBuild (builder .big .big false [[0xAB]] .none) = .next t := ⟨by decide, _, rfl⟩

theorem witness_RegistersAndCoilsOfPairs :
    ([(0x02, 0x01)] : List (Byte × Byte))[0]?
        = some (0x02, 0x01) ∧ ([0x0102] : List Register)[0]? = some 0x0102 ∧ 15 < 16 := by
  decide

theorem witness_CoilsBecomeBytesMsbFirstWithLeadingPadding :
    1 < ([true, false, false, false, false, false, false, false, false].length + 7) / 8 ∧ 7 < 8 := by decide

/-- Both ends of the signed 8-bit range. -/
theorem witness_SignedViewAndPatternAreInverse :
    0 < 8 ∧ -(2 ^ (8 - 1)) ≤ (-128 : Int) ∧ (-128 : Int) < 2 ^ (8 - 1) ∧ -(2 ^ (8 - 1)) ≤ (127 : Int) ∧ (127 : Int) < 2 ^ (8 - 1) := by
  decide

/-- Eight bits at the tightest capacities, and the repack clause at its own. -/
theorem witness_ScalarRoundTripThroughRegisters :
    (Instr.bAddU8, Instr.dU8, Width.w8) ∈ matchingScalars
      ∧ WithinCapacity (some 1) Width.w8.bytes ∧ WithinCapacity (some 2) (max 2 Width.w8.bytes)
      ∧ WithinCapacity (bounded 2 State.reset).cfg.encCap 2 ∧ WithinCapacity (bounded 2 State.reset).cfg.decCap 2 :=
  ⟨by decide, withinCapacity_of_fits (by decide), withinCapacity_of_fits (by decide), withinCapacity_of_fits (by decide),
    withinCapacity_of_fits (by decide)⟩

/-- The same two bytes at different cursors of different buffers. -/
theorem witness_TypedDecodeDependsOnlyOnItsSliceAndOrders :
    (Instr.dU16, Width.w16) ∈ typedDecodes ∧ (Instr.dF16, Width.w16) ∈ typedDecodes
      ∧ ∃ s₁ s₂ t₁ t₂ : State, s₁.dec.state = .ready ∧ s₂.dec.state = .ready ∧ s₁.din = .none ∧ s₂.din = .none
        ∧ s₁.dec.bo = s₂.dec.bo ∧ s₁.dec.wo = s₂.dec.wo
        ∧ (s₁.dec.buf.drop s₁.dec.cur).take Width.w16.bytes = (s₂.dec.buf.drop s₂.dec.cur).take Width.w16.bytes
        ∧ exec .dU16 s₁ = .next t₁ ∧ exec .dF16 s₂ = .next t₂ ∧ s₁.dec.cur ≠ s₂.dec.cur ∧ t₁.status = 0 :=
  ⟨by decide, by decide, decoder .little .big [0x01, 0x02] 0 .none, decoder .little .big [0xFF, 0x01, 0x02, 0x03] 1 .none, _, _,
    by decide, by decide, by decide, by decide, by decide, by decide, by decide, rfl, rfl, by decide, by decide⟩

theorem witness_ChunkBoundariesAreNeverObserved :
    ∃ s₁ s₂ t₁ t₂ : State, s₁.enc.flat = s₂.enc.flat ∧ s₂ = { s₁ with enc := { s₁.enc with chunks := s₂.enc.chunks } }
      ∧ s₁.enc.chunks ≠ s₂.enc.chunks ∧ exec .bEncode s₁ = .next t₁ ∧ exec .bEncode s₂ = .next t₂ ∧ t₁.status = 0 :=
  ⟨builder .big .big false [[0x01], [0x02]] .none, builder .big .big false [[0x01, 0x02]] .none, _, _,
    by decide, rfl, by decide, rfl, rfl, by decide⟩

/-- Two blocks of three, one of them with a command to issue. -/
theorem witness_SeparateInstancesCommute :
    (0 : Nat) ≠ 2 ∧ ∃ g, stepGroup 2 [State.reset, State.reset, issuing [⟨0x10600000, .none⟩] State.reset] = .next g ∧ g.length = 3 :=
  ⟨by decide, _, rfl, by decide⟩

end Sys2Proof.Tests
end

section
/-! The two statements of the spec's 00_scope.md: what a failed command may change (R15, R54), and the canonical big-endian
encoding (R10). -/

namespace Sys2Proof.Machine

/-! ### Failed commands -/

/-- A failing command keeps its state, or it aborts the decoder session, which only a decoder constructor and a read past the
end do (R15). -/
theorem Effect.err_cases {s u : State} {k : CommandKind} {e : CommandError} (h : Effect s k (.err u e)) :
    u = s ∨ (u = s.abortDecoder ∧ (k = .decoderConstruct ∨ (e = .truncatedBuffer ∧ ∃ n, k = .decoderTake n))) := by
  cases h with
  | bufferTooLong | loadRejected => exact .inr ⟨rfl, .inl rfl⟩
  | truncated n => exact .inr ⟨rfl, .inr ⟨rfl, n, rfl⟩⟩
  | seedTooLong | chunkTooLong | rejected | noEncoder | noDecoder | aborted => exact .inl rfl

/-- Settles O21: a nonzero STATUS comes from an error reply, and `Effect.err_cases` names the two states it can hold. -/
theorem failedCommandChangesOnlyTheResponseAndTheAbort :
    Obligations.FailedCommandChangesOnlyTheResponseAndTheAbort := by
  intro i s t h hstatus
  obtain ⟨r, rfl, heffect⟩ := exec_next h
  cases r with
  | ok u out => exact absurd (State.complete_status u out) hstatus
  | err u e =>
    rcases heffect.err_cases with rfl | ⟨rfl, hcause⟩
    · exact ⟨rfl, .inl rfl⟩
    · refine ⟨rfl, .inr ⟨rfl, ?_⟩⟩
      rcases hcause with hconstruct | ⟨rfl, htake⟩
      · exact .inl hconstruct
      · exact .inr ⟨rfl, htake⟩

/-! ### The canonical encoding -/

/-- Byte `i` of `BE_n(v)` is `v` without the `n - 1 - i` bytes below it. -/
theorem getElem?_beBytes {n i : Nat} (v : Nat) (h : i < n) :
    (beBytes n v)[i]? = some (BitVec.ofNat 8 (v / 256 ^ (n - 1 - i))) := by
  induction n generalizing i with
  | zero => omega
  | succ n ih =>
    rw [beBytes_succ]
    cases i with
    | zero => rfl
    | succ i => rw [List.getElem?_cons_succ, ih (by omega), show n + 1 - 1 - (i + 1) = n - 1 - i by omega]

theorem beValue_eq_sum (x : List Byte) :
    beValue x = ∑ i ∈ Finset.range x.length, ((x[i]?).getD 0).toNat * 256 ^ (x.length - 1 - i) := by
  induction x with
  | nil => rfl
  | cons b s ih =>
    rw [beValue_cons, List.length_cons, Finset.sum_range_succ', ih, Nat.add_comm]
    congr 1
    refine Finset.sum_congr rfl fun i _ => ?_
    rw [List.getElem?_cons_succ, show s.length + 1 - 1 - (i + 1) = s.length - 1 - i by omega]

/-- `BEval` after `BE_n` keeps the low `n` bytes of a number. -/
theorem beValue_beBytes (n v : Nat) : beValue (beBytes n v) = v % 256 ^ n := by
  induction n with
  | zero => simp [beBytes_zero, beValue, Nat.mod_one]
  | succ n ih =>
    rw [Nat.mod_pow_succ (b := 256), beBytes_succ, beValue_cons, length_beBytes, ih, BitVec.toNat_ofNat, Nat.add_comm,
      Nat.mul_comm]

/-- `BE_n` does not see what stands above the low `n` bytes. -/
theorem beBytes_mul_pow_add {n m : Nat} (a v : Nat) (h : n ≤ m) : beBytes n (a * 256 ^ m + v) = beBytes n v := by
  induction n with
  | zero => rfl
  | succ n ih =>
    rw [beBytes_succ, beBytes_succ, ih (by omega)]
    congr 1
    obtain ⟨d, rfl⟩ := Nat.exists_eq_add_of_le h
    have hsplit : a * 256 ^ (n + 1 + d) + v = v + 256 ^ n * (256 * (a * 256 ^ d)) := by ring
    apply BitVec.eq_of_toNat_eq
    rw [BitVec.toNat_ofNat, BitVec.toNat_ofNat, hsplit, Nat.add_mul_div_left _ _ (by positivity), Nat.add_mul_mod_self_left]

theorem beBytes_beValue (x : List Byte) : beBytes x.length (beValue x) = x := by
  induction x with
  | nil => rfl
  | cons b s ih =>
    have hhead : (b.toNat * 256 ^ s.length + beValue s) / 256 ^ s.length = b.toNat := by
      rw [Nat.mul_comm, Nat.mul_add_div (by positivity), Nat.div_eq_of_lt (beValue_lt s), Nat.add_zero]
    rw [beValue_cons, List.length_cons, beBytes_succ, hhead, BitVec.ofNat_toNat, BitVec.setWidth_eq,
      beBytes_mul_pow_add _ _ le_rfl, ih]

/-- Settles O43: the byte formula, the weighted sum, and the two inverses, each a lemma by induction above. -/
theorem canonicalEncodingIsBigEndianAndInvertible : Obligations.CanonicalEncodingIsBigEndianAndInvertible := by
  refine ⟨fun n v i h => ?_, beValue_eq_sum, fun n v h => ⟨length_beBytes n v, ?_⟩, beBytes_beValue⟩
  · rw [getElem?_beBytes v h, Nat.pow_mul]
  · rw [beValue_beBytes, Nat.mod_eq_of_lt h]

end Sys2Proof.Machine
end

section
/-! The statements of the spec's 10_state.md: what reset holds, what a step does to the host's sequence and the error history, and
which commands write which field of the two channels (R22 to R44). -/

namespace Sys2Proof.Machine

/-! ### The state that a reply holds -/

/-- The state that a command's rule gives, before the response is put on STATUS, DOUT and `errlog`. -/
def Reply.base : Reply → State
  | .ok s _ => s
  | .err s _ => s

@[simp] theorem Reply.base_ok (s : State) (out : Payload) : (Reply.ok s out).base = s := rfl
@[simp] theorem Reply.base_err (s : State) (e : CommandError) : (Reply.err s e).base = s := rfl
@[simp] theorem Reply.state_enc (r : Reply) : r.state.enc = r.base.enc := by cases r <;> rfl
@[simp] theorem Reply.state_dec (r : Reply) : r.state.dec = r.base.dec := by cases r <;> rfl

/-- The response is put on STATUS, DOUT and `errlog` only. -/
theorem Reply.keepsInputs_state {s : State} {r : Reply} (h : KeepsInputs s r.base) : KeepsInputs s r.state := by
  cases r with
  | ok u out => exact ⟨h.cmd, h.din, h.pending, h.pos, h.cfg⟩
  | err u e => exact ⟨h.cmd, h.din, h.pending, h.pos, h.cfg⟩

/-- `t` differs from `s` in the two channels at most. -/
def ChannelsOnly (s t : State) : Prop := ∃ enc dec, t = { s with enc := enc, dec := dec }

theorem ChannelsOnly.errlog {s t : State} (h : ChannelsOnly s t) : t.errlog = s.errlog := by
  obtain ⟨enc, dec, rfl⟩ := h
  rfl

theorem ChannelsOnly.keepsInputs {s t : State} (h : ChannelsOnly s t) : KeepsInputs s t := by
  obtain ⟨enc, dec, rfl⟩ := h
  exact ⟨rfl, rfl, rfl, rfl, rfl⟩

/-- A command's rule writes the channels only; the rest of the next state is the response. -/
theorem Effect.channelsOnly {s : State} {k : CommandKind} {r : Reply} (h : Effect s k r) : ChannelsOnly s r.base := by
  cases h <;> exact ⟨_, _, rfl⟩

/-- Every step on a pending transaction is the response to a reply that holds the accepted state up to the channels. -/
theorem step_reply {s : State} {t : Transaction} {rest : List Transaction} (hp : s.pending = t :: rest) :
    ∃ r : Reply, step s = .next r.state ∧ ChannelsOnly (s.accept t rest) r.base := by
  rcases step_cases s with ⟨hnil, -⟩ | ⟨t', rest', hp', hstep⟩
  · exact absurd (hp.symm.trans hnil) (List.cons_ne_nil t rest)
  · obtain ⟨rfl, rfl⟩ := List.cons.inj (hp.symm.trans hp')
    rcases hstep with ⟨_, -, hstep⟩ | ⟨i, -, hstep⟩
    · exact ⟨.err (s.accept t rest) .illegalCommand, hstep, _, _, rfl⟩
    · obtain ⟨r, hr, heffect⟩ := exec_effect i (s.accept t rest)
      exact ⟨r, hstep.trans hr, heffect.channelsOnly⟩

/-! ### The step and the host's sequence -/

/-- Settles O6: `step` accepts the transaction, and `perform` decodes its word to `i`. -/
theorem stepRunsTheDecodedCommand : Obligations.StepRunsTheDecodedCommand := by
  intro s t rest i hp hdecode
  simp [step, State.nextCommand_cons hp, perform, hdecode, State.accept]

/-- Settles O9: the position and the pending sequence are those of the accepted state, by `step_reply`. -/
theorem everyCommandAdvancesThePositionByOne : Obligations.EveryCommandAdvancesThePositionByOne := by
  intro s t rest hp
  obtain ⟨r, hstep, hbase⟩ := step_reply hp
  have hkeep := Reply.keepsInputs_state hbase.keepsInputs
  exact ⟨r.state, hstep, hkeep.pos, hkeep.pending⟩

/-! ### The error history -/

/-- `t` answers a command run with the error history of `s`: OK and the history as it was, or an error whose code is
appended and whose DOUT is NONE (R34). -/
def AnsweredFrom (s t : State) : Prop :=
  t.status ≠ 7 ∧
    ((t.status = 0 ∧ t.errlog = s.errlog) ∨
      (t.status ≠ 0 ∧ t.errlog = s.errlog ++ [t.status] ∧ t.dout = .none))

theorem Reply.answeredFrom_base (r : Reply) : AnsweredFrom r.base r.state := by
  cases r with
  | ok u out => exact ⟨by simp, .inl ⟨rfl, rfl⟩⟩
  | err u e => exact ⟨e.code_ne_seven, .inr ⟨e.code_ne_zero, rfl, rfl⟩⟩

theorem AnsweredFrom.of_errlog_eq {s u t : State} (h : AnsweredFrom u t) (he : u.errlog = s.errlog) : AnsweredFrom s t := by
  unfold AnsweredFrom at *
  rwa [he] at h

/-- Settles O10: a reply answers with the history of the state it holds, which is that of `s` by `step_reply`. -/
theorem eachFailedCommandAppendsExactlyItsCode : Obligations.EachFailedCommandAppendsExactlyItsCode := by
  intro s hpending
  obtain ⟨t, rest, hp⟩ := List.exists_cons_of_ne_nil hpending
  obtain ⟨r, hstep, hbase⟩ := step_reply hp
  exact ⟨r.state, hstep, r.answeredFrom_base.of_errlog_eq hbase.errlog⟩

/-- A step is idle, or it answers a command. -/
theorem step_idle_or_answered {s t : State} (h : step s = .next t) : t = s ∨ AnsweredFrom s t := by
  by_cases hp : s.pending = []
  · rcases step_cases s with ⟨-, hidle⟩ | ⟨_, _, hcons, -⟩
    · exact .inl (Host.Outcome.next.inj (h.symm.trans hidle))
    · exact absurd (hcons.symm.trans hp) (List.cons_ne_nil _ _)
  · obtain ⟨u, hu, hanswer⟩ := eachFailedCommandAppendsExactlyItsCode s hp
    exact .inr (Host.Outcome.next.inj (hu.symm.trans h) ▸ hanswer)

theorem step_errlog_prefix {s t : State} (h : step s = .next t) : s.errlog <+: t.errlog := by
  rcases step_idle_or_answered h with rfl | ⟨-, ⟨-, hlog⟩ | ⟨-, hlog, -⟩⟩
  · exact List.prefix_rfl
  · exact hlog ▸ List.prefix_rfl
  · exact hlog ▸ List.prefix_append _ _

theorem step_status_of_errlog_eq {s t : State} (h : step s = .next t) (hlog : t.errlog = s.errlog) (hs : s.status = 0) :
    t.status = 0 := by
  rcases step_idle_or_answered h with rfl | ⟨-, ⟨hok, -⟩ | ⟨-, happend, -⟩⟩
  · exact hs
  · exact hok
  · exact absurd (hlog.symm.trans happend) (by simp)

theorem reaches_errlog_prefix {n : Nat} {s t : State} (h : Reaches n s t) : s.errlog <+: t.errlog := by
  induction n generalizing s with
  | zero => exact reaches_zero.mp h ▸ List.prefix_rfl
  | succ n ih =>
    obtain ⟨u, hstep, hrun⟩ := reaches_succ.mp h
    exact (step_errlog_prefix hstep).trans (ih hrun)

/-- Every state on the way of a run that leaves `errlog` unchanged and starts at STATUS 0 has STATUS 0. -/
theorem reaches_ok_of_errlog_eq {n : Nat} {s t : State} (h : Reaches n s t) (hlog : t.errlog = s.errlog)
    (hs : s.status = 0) : ∀ k, k ≤ n → ∃ u, Reaches k s u ∧ u.status = 0 ∧ u.errlog = s.errlog := by
  induction n generalizing s with
  | zero =>
    intro k hk
    obtain rfl := Nat.le_zero.mp hk
    exact ⟨s, reaches_zero.mpr rfl, hs, rfl⟩
  | succ n ih =>
    obtain ⟨u, hstep, hrun⟩ := reaches_succ.mp h
    have hprefix : s.errlog <+: u.errlog := step_errlog_prefix hstep
    have hu : u.errlog = s.errlog :=
      (hprefix.eq_of_length_le (hlog ▸ (reaches_errlog_prefix hrun).length_le)).symm
    intro k hk
    cases k with
    | zero => exact ⟨s, reaches_zero.mpr rfl, hs, rfl⟩
    | succ k =>
      obtain ⟨v, hv, hok, hvlog⟩ :=
        ih hrun (hlog.trans hu.symm) (step_status_of_errlog_eq hstep hu hs) k (Nat.le_of_succ_le_succ hk)
      exact ⟨v, reaches_succ.mpr ⟨u, hstep, hv⟩, hok, hvlog.trans hu⟩

/-- Settles O11: both halves by induction on the steps of the run. -/
theorem runWithUnchangedErrorLogAnsweredOkThroughout : Obligations.RunWithUnchangedErrorLogAnsweredOkThroughout :=
  fun _ _ _ h => ⟨reaches_errlog_prefix h, reaches_ok_of_errlog_eq h⟩

/-! ### Reset and the invariant -/

/-- Settles O12: the values that `State.resetWith` is defined with. -/
theorem resetLeavesTheValuesOfTheTable : Obligations.ResetLeavesTheValuesOfTheTable :=
  ⟨rfl, fun _ => ⟨rfl, rfl, rfl, rfl, rfl, rfl, rfl, rfl, rfl, rfl, rfl, rfl, rfl⟩⟩

@[simp] theorem State.resetWith_status (c : Config) : (State.resetWith c).status = 0 := rfl
@[simp] theorem State.resetWith_errlog (c : Config) : (State.resetWith c).errlog = [] := rfl

/-- Settles O13: the stores fit every capacity (`Memory.wf_resetWith`), and STATUS 0 and the empty `errlog` claim no error. -/
theorem resetStateSatisfiesInv : Obligations.ResetStateSatisfiesInv := fun c =>
  { stores := Memory.wf_resetWith c
    status_assigned := by simp
    error_no_result := by simp
    error_logged := by simp
    errlog_codes := by simp }

/-- Every command's rule keeps the form of the byte stores: what it stores fits, and a cursor it moves stays inside. -/
theorem Effect.wf_base {s : State} {k : CommandKind} {r : Reply} (h : Effect s k r) (hwf : Memory.wf s = true) :
    Memory.wf r.base = true := by
  cases h with
  | opened bo wo repack ch _ hf => exact Memory.wf_openEncoder bo wo repack hwf hf
  | appended _ chunk hf => exact Memory.wf_append hwf hf
  | cleared => exact Memory.wf_clear hwf
  | loaded bo wo buf hf => exact Memory.wf_openDecoder bo wo hwf hf
  | bufferTooLong | loadRejected | truncated => exact Memory.wf_abortDecoder hwf
  | taken n _ _ hn => exact Memory.wf_setCursor hwf hn
  | rewound => exact Memory.wf_setCursor hwf (Nat.zero_le _)
  | computed | converted | seedTooLong | chunkTooLong | rejected | noEncoder | noDecoder | aborted => exact hwf

/-- A response to well-formed stores and a history of error codes meets the invariant, whatever the STATUS and DOUT of the
state it holds. -/
theorem Reply.inv_state {r : Reply} (hwf : Memory.wf r.base = true) (hlog : ∀ c ∈ r.base.errlog, isErrorCode c = true) :
    r.state.Inv := by
  cases r with
  | ok u out =>
    exact
      { stores := Memory.wf_complete out hwf
        status_assigned := by simp
        error_no_result := by simp
        error_logged := by simp
        errlog_codes := hlog }
  | err u e =>
    exact
      { stores := Memory.wf_raise e hwf
        status_assigned := e.code_ne_seven
        error_no_result := fun _ => rfl
        error_logged := fun _ => List.getLast?_concat
        errlog_codes := fun c hc => by
          rcases List.mem_append.mp hc with hc | hc
          · exact hlog c hc
          · exact List.mem_singleton.mp hc ▸ e.isErrorCode_code }

/-- Settles O14: a step is idle, refuses an illegal word, or answers a reply whose stores are well formed by
`Effect.wf_base`; `Reply.inv_state` gives the rest. -/
theorem everyStepKeepsInv : Obligations.EveryStepKeepsInv := by
  intro s s' hinv hstep
  rcases step_cases s with ⟨-, hidle⟩ | ⟨t, rest, -, ⟨_, -, hillegal⟩ | ⟨i, -, hexec⟩⟩
  · exact Host.Outcome.next.inj (hidle.symm.trans hstep) ▸ hinv
  · obtain rfl := Host.Outcome.next.inj (hillegal.symm.trans hstep)
    exact Reply.inv_state (r := .err (s.accept t rest) .illegalCommand) (Memory.wf_accept t rest hinv.stores)
      hinv.errlog_codes
  · obtain ⟨r, rfl, heffect⟩ := exec_next (hexec.symm.trans hstep)
    exact Reply.inv_state (heffect.wf_base (Memory.wf_accept t rest hinv.stores))
      (heffect.channelsOnly.errlog.symm ▸ hinv.errlog_codes)

/-! ### Which commands write the channels -/

theorem kind_eq_encoderConstruct {i : Instr} : i.kind = .encoderConstruct ↔ ∃ bo wo repack, i = .bInit bo wo repack := by
  cases i <;> simp [Instr.kind]

theorem kind_eq_decoderRewind {i : Instr} : i.kind = .decoderRewind ↔ i = .dReset := by
  cases i <;> simp [Instr.kind]

theorem exec_bInit (bo wo : Endian) (repack : Bool) (s : State) :
    exec (.bInit bo wo repack) s = respond (constructEncoder bo wo repack s) := rfl

/-- Only a B_INIT that opens a session writes the encoder configuration (R26). -/
theorem Effect.sameEncoderConfig {s : State} {k : CommandKind} {r : Reply} (h : Effect s k r) (hk : k ≠ .encoderConstruct) :
    SameEncoderConfig s r.state := by
  cases h with
  | opened => exact absurd rfl hk
  | _ => exact ⟨rfl, rfl, rfl⟩

/-- A B_INIT fails and keeps the encoder configuration, or succeeds and writes its own. -/
theorem bInit_encoderConfig {bo wo : Endian} {repack : Bool} {s t : State} (h : exec (.bInit bo wo repack) s = .next t) :
    SameEncoderConfig s t ∨ (t.status = 0 ∧ t.enc.bo = bo ∧ t.enc.wo = wo ∧ t.enc.repack = repack) := by
  obtain rfl := respond_eq_next.mp ((exec_bInit bo wo repack s).symm.trans h)
  rcases constructEncoder_cases bo wo repack s with ⟨-, hr⟩ | ⟨ch, -, -, hr⟩ | ⟨ch, -, -, hr⟩ <;> rw [hr]
  · exact .inl ⟨rfl, rfl, rfl⟩
  · exact .inr ⟨rfl, rfl, rfl, rfl⟩
  · exact .inl ⟨rfl, rfl, rfl⟩

/-- Settles O15: `Effect.sameEncoderConfig` leaves B_INIT alone, and `bInit_encoderConfig` says what that writes. -/
theorem encoderConfigurationIsWrittenOnlyBySuccessfulBInit :
    Obligations.EncoderConfigurationIsWrittenOnlyBySuccessfulBInit := by
  intro i s t h hchange
  obtain ⟨r, rfl, heffect⟩ := exec_next h
  have hkind : i.kind = .encoderConstruct := not_not.mp fun hk => hchange (heffect.sameEncoderConfig hk)
  obtain ⟨bo, wo, repack, rfl⟩ := kind_eq_encoderConstruct.mp hkind
  obtain ⟨hok, hconfig⟩ := (bInit_encoderConfig h).resolve_left hchange
  exact ⟨hok, bo, wo, repack, rfl, hconfig⟩

/-- A command keeps the decoder's orders and buffer, or is a constructor that succeeded (R28). -/
theorem Effect.sameDecoder_or_loaded {s : State} {k : CommandKind} {r : Reply} (h : Effect s k r) :
    (SameDecoderConfig s r.state ∧ r.state.dec.buf = s.dec.buf) ∨ (r.state.status = 0 ∧ k = .decoderConstruct) := by
  cases h with
  | loaded => exact .inr ⟨rfl, rfl⟩
  | _ => exact .inl ⟨⟨rfl, rfl⟩, rfl⟩

/-- Settles O16: an unchanged buffer reads the same at every offset, so only a successful constructor is left. -/
theorem decoderOrdersAndBufferChangeOnlyAtConstruction : Obligations.DecoderOrdersAndBufferChangeOnlyAtConstruction := by
  intro i s t h hchange
  obtain ⟨r, rfl, heffect⟩ := exec_next h
  refine heffect.sameDecoder_or_loaded.resolve_left fun ⟨hconfig, hbuf⟩ => hchange ⟨hconfig, ?_⟩
  exact State.decoderByte_congr hbuf

/-- The four things a command can do to the cursor (R30). -/
theorem Effect.cursor_cases {s : State} {k : CommandKind} {r : Reply} (h : Effect s k r) :
    r.state.dec.cur = s.dec.cur ∨ k = .decoderConstruct ∨
      (r.state.status = 0 ∧
        ∃ n, k = .decoderTake n ∧ r.state.dec.cur = s.dec.cur + n ∧ r.state.dec.cur ≤ r.state.dec.buf.length) ∨
      (r.state.status = 0 ∧ k = .decoderRewind ∧ r.state.dec.cur = 0) := by
  cases h with
  | loaded => exact .inr (.inl rfl)
  | taken n _ _ hn => exact .inr (.inr (.inl ⟨rfl, n, rfl, rfl, hn⟩))
  | rewound => exact .inr (.inr (.inr ⟨rfl, rfl, rfl⟩))
  | _ => exact .inl rfl

/-- Settles O17: of the cases of `Effect.cursor_cases` a read, a skip or D_RESET is left. -/
theorem cursorMovesByTheBytesTakenOrRewinds : Obligations.CursorMovesByTheBytesTakenOrRewinds := by
  intro i s t h hkind hmove
  obtain ⟨r, rfl, heffect⟩ := exec_next h
  rcases heffect.cursor_cases with hsame | hconstruct | ⟨hok, htake⟩ | ⟨hok, hrewind, hzero⟩
  · exact absurd hsame hmove
  · exact absurd hconstruct hkind
  · exact ⟨hok, .inl htake⟩
  · exact ⟨hok, .inr ⟨kind_eq_decoderRewind.mp hrewind, hzero⟩⟩

/-! ### The stateless commands -/

/-- The command answers with a function of DIN: its result, or InvalidInput where there is none, and the state as it was
(R44). -/
def AnswersFromDin (i : Instr) : Prop :=
  ∃ result : Payload → Option Payload, ∀ s, exec i s = respond (expectOperand (result s.din) s (.ok s))

theorem computeStateless_eq {α : Type} (operand : Option α) (s : State) (result : α → Payload) :
    computeStateless operand s result = expectOperand (operand.map result) s (.ok s) := by
  cases operand <;> rfl

theorem answersFromDin_of_computeStateless {α : Type} {i : Instr} (operand : Payload → Option α) (result : α → Payload)
    (h : ∀ s, exec i s = respond (computeStateless (operand s.din) s result)) : AnswersFromDin i :=
  ⟨fun p => (operand p).map result, fun s => (h s).trans (congrArg respond (computeStateless_eq _ s result))⟩

theorem answersFromDin_of_stateless {i : Instr} (h : i.kind = .stateless) : AnswersFromDin i := by
  cases i with
  | xfwd8 | xfwd16 | xfwd32 | xfwd64 | xinv8 | xinv16 | xinv32 | xinv64 =>
    exact answersFromDin_of_computeStateless (Payload.bytesOfLength _) _ fun _ => rfl
  | pack => exact answersFromDin_of_computeStateless Payload.bitsOf _ fun _ => rfl
  | unpack => exact answersFromDin_of_computeStateless Payload.bytesOf _ fun _ => rfl
  | _ => exact nomatch h

theorem Effect.stateless_response {s : State} {r : Reply} (h : Effect s .stateless r) :
    r.base = s ∧ (r.state.status = 0 ∨ r.state.status = 1) := by
  cases h with
  | computed => exact ⟨rfl, .inl rfl⟩
  | rejected => exact ⟨rfl, .inr rfl⟩
  | noEncoder _ hk | noDecoder _ hk | aborted _ hk => exact nomatch hk

/-- Operand checks on equal operands answer alike, whatever the states. -/
theorem expectOperand_response_congr {x : Option Payload} (s₁ s₂ : State) :
    (expectOperand x s₁ (.ok s₁)).state.status = (expectOperand x s₂ (.ok s₂)).state.status ∧
      (expectOperand x s₁ (.ok s₁)).state.dout = (expectOperand x s₂ (.ok s₂)).state.dout := by
  cases x <;> exact ⟨rfl, rfl⟩

/-- Settles O20: the frame by `Effect.stateless_response`, the noninterference because the result is a function of DIN. -/
theorem statelessCommandsDependOnDinAlone : Obligations.StatelessCommandsDependOnDinAlone := by
  intro i hkind
  constructor
  · intro s
    obtain ⟨r, hexec, heffect⟩ := exec_effect i s
    have hkeep : KeepsInputs s r.state := Reply.keepsInputs_state heffect.channelsOnly.keepsInputs
    rw [hkind] at heffect
    obtain ⟨hbase, hstatus⟩ := heffect.stateless_response
    exact ⟨r.state, hexec, by simp [hbase], by simp [hbase], hkeep, hstatus⟩
  · intro s₁ s₂ t₁ t₂ hdin h₁ h₂
    obtain ⟨result, hresult⟩ := answersFromDin_of_stateless hkind
    obtain rfl := respond_eq_next.mp ((hresult s₁).symm.trans h₁)
    obtain rfl := respond_eq_next.mp ((hresult s₂).symm.trans h₂)
    rw [hdin]
    exact expectOperand_response_congr s₁ s₂

end Sys2Proof.Machine
end

section
/-! The statements of the spec's 20_memory.md: a store that exceeds its capacity (R46, R57, R140, R186), and which bytes of
the two stores a command can change (R46, R53, R55). -/

namespace Sys2Proof.Machine

/-! ### The bytes that a command stores -/

theorem length_enc16 (bo : Endian) (v : Nat) : (enc16 bo v).length = 2 := by
  unfold enc16
  split
  · rw [List.length_reverse, length_beBytes]
  · exact length_beBytes 2 v

theorem length_encodeScalar (w : Width) (bo wo : Endian) (v : Nat) : (encodeScalar w bo wo v).length = w.bytes := by
  cases w with
  | w8 => rfl
  | w16 => exact length_enc16 bo v
  | w32 => exact length_xform .w32 bo wo _ (length_beBytes 4 v)
  | w64 => exact length_xform .w64 bo wo _ (length_beBytes 8 v)

/-- Every group of at most 8 bits packs into one byte. -/
theorem length_packReversedGroups (c : List Bool) :
    ((chunksOf 8 c).flatMap fun g => pack g.reverse).length = (c.length + 7) / 8 := by
  induction c using chunksOf_induction (k := 8) (by decide) with
  | nil => rfl
  | short g hg hlt => simp [chunksOf_short hg hlt.le, length_pack]
  | piece g s hg ih =>
    simp only [chunksOf_append (by decide) g s hg, List.flatMap_cons, List.length_append, ih, length_pack,
      List.length_reverse, hg]
    omega

theorem length_coilsToBytes (c : List Bool) : (coilsToBytes c).length = (c.length + 7) / 8 := by
  rw [coilsToBytes, length_packReversedGroups, length_padCoils]
  omega

/-! ### The adds -/

/-- With its present operand the command asks for `chunk` to be appended (R46). -/
def AppendsChunk (i : Instr) (s : State) (chunk : List Byte) : Prop :=
  exec i s = respond (builderReady s (appendChunk s chunk))

theorem exec_scalarAdd {i : Instr} {w : Width} (h : (i, w) ∈ scalarAdds) (s : State) :
    exec i s = respond (addScalar w s) := by
  simp only [scalarAdds, List.mem_cons, List.not_mem_nil, or_false, Prod.mk.injEq] at h
  rcases h with ⟨rfl, rfl⟩ | ⟨rfl, rfl⟩ | ⟨rfl, rfl⟩ | ⟨rfl, rfl⟩ | ⟨rfl, rfl⟩ | ⟨rfl, rfl⟩ | ⟨rfl, rfl⟩ | ⟨rfl, rfl⟩ |
    ⟨rfl, rfl⟩ | ⟨rfl, rfl⟩ | ⟨rfl, rfl⟩ <;> rfl

theorem scalarAdd_appendsChunk {i : Instr} {w : Width} {s : State} {p : BitVec w.bits} (h : (i, w) ∈ scalarAdds)
    (hd : s.din = .scalar w p) : AppendsChunk i s (encodeScalar w s.enc.bo s.enc.wo p.toNat) := by
  have hoperand : s.din.scalarOf w = some p.toNat := by simp [hd, Payload.scalarOf]
  rw [AppendsChunk, exec_scalarAdd h, addScalar, expectOperand_some hoperand]

theorem bAddStr_appendsChunk {s : State} {x : List Byte} (hd : s.din = .bytes x) : AppendsChunk .bAddStr s x := by
  have hoperand : s.din.bytesOf = some x := by rw [hd]; rfl
  exact congrArg (fun r => respond (builderReady s r)) (expectOperand_some hoperand s _)

theorem bAddBits_appendsChunk {s : State} {b : List Bool} (hd : s.din = .bits b) : AppendsChunk .bAddBits s (pack b) := by
  have hoperand : s.din.bitsOf = some b := by rw [hd]; rfl
  exact congrArg (fun r => respond (builderReady s r)) (expectOperand_some hoperand s _)

/-- A chunk that does not fit is refused (R186). -/
theorem AppendsChunk.exceeded {i : Instr} {s : State} {chunk : List Byte} {cap : Nat} (h : AppendsChunk i s chunk)
    (hready : s.enc.state = .ready) (hcap : s.cfg.encCap = some cap) (hlen : cap < s.enc.flat.length + chunk.length) :
    exec i s = respond (.err s .capacityExceeded) := by
  rw [AppendsChunk, builderReady_ready hready] at h
  rw [h, appendChunk, fitsCapacity_exceeded hcap hlen]
  rfl

/-- A successful add leaves the accumulator with exactly its chunk behind the old contents. -/
theorem AppendsChunk.flat_of_ok {i : Instr} {s t : State} {chunk : List Byte} (h : AppendsChunk i s chunk)
    (hexec : exec i s = .next t) (hok : t.status = 0) : t.enc.flat = s.enc.flat ++ chunk := by
  obtain rfl := respond_eq_next.mp (h.symm.trans hexec)
  rcases builderReady_cases s (appendChunk s chunk) with ⟨-, hr⟩ | ⟨-, hr⟩ <;> rw [hr] at hok ⊢
  · exact absurd hok (CommandError.code_ne_zero .notConstructed)
  · rcases appendChunk_cases s chunk with ⟨-, hr⟩ | ⟨-, hr⟩ <;> rw [hr] at hok ⊢
    · simp [Encoder.flat]
    · exact absurd hok (CommandError.code_ne_zero .capacityExceeded)

/-- What is appended to the accumulator is stored at its old end: the bytes outside read as before (R53). -/
theorem encoderByte_of_flat_append {s t : State} {chunk : List Byte} (h : t.enc.flat = s.enc.flat ++ chunk) {a : Nat}
    (ha : ¬(s.enc.flat.length ≤ a ∧ a < s.enc.flat.length + chunk.length)) : t.encoderByte a = s.encoderByte a := by
  unfold State.encoderByte
  rw [h]
  rcases Nat.lt_or_ge a s.enc.flat.length with hin | hout
  · exact List.getElem?_append_left hin
  · have hend : (s.enc.flat ++ chunk).length ≤ a := by rw [List.length_append]; omega
    rw [List.getElem?_eq_none hend, List.getElem?_eq_none hout]

/-- The chunk of an add whose operand the table of R78 accepts has the length that the operand fixes (R53). -/
theorem exists_appendsChunk_of_operand {i : Instr} {s : State} {n : Nat}
    (h : (∃ w p, (i, w) ∈ scalarAdds ∧ s.din = .scalar w p ∧ n = w.bytes) ∨
      (i = .bAddStr ∧ ∃ x, s.din = .bytes x ∧ n = x.length) ∨
      (i = .bAddBits ∧ ∃ b, s.din = .bits b ∧ n = (b.length + 7) / 8)) :
    ∃ chunk : List Byte, AppendsChunk i s chunk ∧ chunk.length = n := by
  rcases h with ⟨w, p, hi, hd, rfl⟩ | ⟨rfl, x, hd, rfl⟩ | ⟨rfl, b, hd, rfl⟩
  · exact ⟨_, scalarAdd_appendsChunk hi hd, length_encodeScalar ..⟩
  · exact ⟨x, bAddStr_appendsChunk hd, rfl⟩
  · exact ⟨pack b, bAddBits_appendsChunk hd, length_pack b⟩

/-! ### Constructions that do not fit -/

theorem constructEncoder_exceeded {s : State} {seed : List Byte} {cap : Nat} (bo wo : Endian) (repack : Bool)
    (hd : s.din = .bytes seed) (hcap : s.cfg.encCap = some cap) (hlen : cap < seed.length) :
    constructEncoder bo wo repack s = .err s .capacityExceeded := by
  have hoperand : s.din.seedChunks = some [seed] := by rw [hd]; rfl
  have hflat : cap < [seed].flatten.length := by simpa using hlen
  rw [constructEncoder, expectOperand_some hoperand, fitsCapacity_exceeded hcap hflat]
  rfl

theorem decoderFrom_exceeded {s : State} {operand : Option (List Byte)} {buf : List Byte} {cap : Nat} (bo wo : Endian)
    (hoperand : operand = some buf) (hcap : s.cfg.decCap = some cap) (hlen : cap < buf.length) :
    decoderFrom operand bo wo s = .err s.abortDecoder .capacityExceeded := by
  rw [decoderFrom, expectOperand_some hoperand, constructDecoder, fitsCapacity_exceeded hcap hlen]
  rfl

/-- Settles O25: each command is one of three stores (`AppendsChunk`, `constructEncoder`, `decoderFrom`), and the length lemmas
say how many bytes it stores. -/
theorem overfullStoreRaisesCapacityExceeded : Obligations.OverfullStoreRaisesCapacityExceeded := by
  refine ⟨?scalar, ?str, ?bits, ?seed, ?raw, ?regs, ?coils⟩
  case scalar =>
    intro c hc s p cap hready hd hcap hlen
    exact (scalarAdd_appendsChunk hc hd).exceeded hready hcap (by rwa [length_encodeScalar])
  case str =>
    intro s x cap hready hd hcap hlen
    exact (bAddStr_appendsChunk hd).exceeded hready hcap hlen
  case bits =>
    intro s b cap hready hd hcap hlen
    exact (bAddBits_appendsChunk hd).exceeded hready hcap (by rwa [length_pack])
  case seed =>
    intro s bo wo repack seed cap hd hcap hlen
    exact congrArg respond (constructEncoder_exceeded bo wo repack hd hcap hlen)
  case raw =>
    intro s bo wo buf cap hd hcap hlen
    exact congrArg respond (decoderFrom_exceeded bo wo (by rw [hd]; rfl) hcap hlen)
  case regs =>
    intro s bo wo r cap hd hcap hlen
    exact congrArg respond
      (decoderFrom_exceeded (buf := regsToBytes r) bo wo (by rw [hd]; rfl) hcap (by rwa [length_regsToBytes]))
  case coils =>
    intro s bo wo c cap hd hcap hlen
    exact congrArg respond
      (decoderFrom_exceeded (buf := coilsToBytes c) bo .big (by rw [hd]; rfl) hcap (by rwa [length_coilsToBytes]))

/-! ### Frames -/

/-- Only the decoder's commands write the decoder channel. -/
theorem Effect.dec_eq {s : State} {k : CommandKind} {r : Reply} (h : Effect s k r) (hk : k.isDecoder = false) :
    r.state.dec = s.dec := by
  cases h with
  | loaded | bufferTooLong | loadRejected | taken | truncated | rewound => exact nomatch hk
  | _ => rfl

/-- Every command but B_INIT, the adds and B_RESET leaves the encoder channel as it was (R55, R128). -/
theorem Effect.enc_eq {s : State} {k : CommandKind} {r : Reply} (h : Effect s k r)
    (hk : k.isEncoder = false ∨ k = .encoderRead) : r.state.enc = s.enc := by
  cases h with
  | opened | appended | cleared => exact absurd hk (by decide)
  | _ => rfl

/-- Only B_INIT opens an encoder session, and no command closes one. -/
theorem Effect.enc_state_eq {s : State} {k : CommandKind} {r : Reply} (h : Effect s k r) (hk : k ≠ .encoderConstruct) :
    r.state.enc.state = s.enc.state := by
  cases h with
  | opened => exact absurd rfl hk
  | _ => rfl

theorem isEncoder_eq_false_of_needsDecoder {k : CommandKind} (h : k.needsDecoder = true) : k.isEncoder = false := by
  cases k with
  | decoderTake | decoderRewind => rfl
  | _ => exact nomatch h

theorem isDecoder_eq_false {k : CommandKind} (hneeds : k.needsDecoder = false)
    (hk : k ≠ .decoderConstruct) : k.isDecoder = false := by
  cases k with
  | decoderTake | decoderRewind => exact nomatch hneeds
  | decoderConstruct => exact absurd rfl hk
  | _ => rfl

/-- A failed command leaves the encoder channel as it was (R54). -/
theorem exec_failed_enc {i : Instr} {s t : State} (h : exec i s = .next t) (hfail : t.status ≠ 0) : t.enc = s.enc := by
  rw [(failedCommandChangesOnlyTheResponseAndTheAbort i s t h hfail).1]

/-- Settles O40: what an add leaves alone is read off its `Effect`; what it stores is the chunk of its operand. -/
theorem frameOfTheAdds : Obligations.FrameOfTheAdds := by
  intro i s t hkind h
  obtain ⟨r, rfl, heffect⟩ := exec_next h
  have hinit : i.kind ≠ .encoderConstruct := by rw [hkind]; decide
  refine ⟨Reply.keepsInputs_state heffect.channelsOnly.keepsInputs, heffect.dec_eq (by rw [hkind]; rfl),
    heffect.sameEncoderConfig hinit, heffect.enc_state_eq hinit, exec_failed_enc h, ?_⟩
  intro n hoperand hok
  obtain ⟨chunk, hchunk, rfl⟩ := exists_appendsChunk_of_operand hoperand
  have hflat : r.state.enc.flat = s.enc.flat ++ chunk := hchunk.flat_of_ok h hok
  exact ⟨by rw [hflat, List.length_append], fun a => encoderByte_of_flat_append hflat⟩

/-- Settles O41: the kinds that store nothing are no encoder command but a conversion, and no decoder constructor. -/
theorem frameOfTheCommandsThatStoreNothing : Obligations.FrameOfTheCommandsThatStoreNothing := by
  intro i s t h hkind
  obtain ⟨r, rfl, heffect⟩ := exec_next h
  have hencoder : i.kind.isEncoder = false ∨ i.kind = .encoderRead := by
    rcases hkind with hstateless | hread | hneeds
    · exact .inl (by rw [hstateless]; rfl)
    · exact .inr hread
    · exact .inl (isEncoder_eq_false_of_needsDecoder hneeds)
  have hconstruct : i.kind ≠ .decoderConstruct := by
    intro hk
    rw [hk] at hkind
    exact absurd hkind (by decide)
  have henc : r.state.enc = s.enc := heffect.enc_eq hencoder
  obtain ⟨hconfig, hbuf⟩ := heffect.sameDecoder_or_loaded.resolve_right fun hloaded => hconstruct hloaded.2
  exact ⟨Reply.keepsInputs_state heffect.channelsOnly.keepsInputs, henc, State.encoderByte_congr (by rw [henc]),
    State.decoderByte_congr hbuf, hconfig,
    fun hneeds => heffect.dec_eq (isDecoder_eq_false hneeds hconstruct)⟩

end Sys2Proof.Machine
end

section
/-! The statements of the spec's 30_encoding.md: the command word, its decoder and its encoder (R65 to R77, R83). -/

namespace Sys2Proof

open Laws.EncodeFields (fieldValues toNat_extractLsb'_ofNat)

/-! ### The fields of a word as numbers -/

section Fields

variable (w : CommandWord)

theorem commandFields_opc_toNat : (commandFields w).opc.toNat = w.toNat / 2 ^ 24 := by
  have hw := w.isLt
  simp only [commandFields, BitVec.extractLsb'_toNat, Nat.shiftRight_eq_div_pow]
  omega

theorem commandFields_bo_toNat : (commandFields w).bo.toNat = w.toNat / 2 ^ 22 % 4 := by
  simp [commandFields, Nat.shiftRight_eq_div_pow]

theorem commandFields_wo_toNat : (commandFields w).wo.toNat = w.toNat / 2 ^ 20 % 4 := by
  simp [commandFields, Nat.shiftRight_eq_div_pow]

theorem commandFields_repack_toNat : (commandFields w).repack.toNat = w.toNat / 2 ^ 19 % 2 := by
  simp [commandFields, Nat.shiftRight_eq_div_pow]

theorem commandFields_rsv_toNat : (commandFields w).rsv.toNat = w.toNat / 2 ^ 16 % 8 := by
  simp [commandFields, Nat.shiftRight_eq_div_pow]

theorem commandFields_count_toNat : (commandFields w).count.toNat = w.toNat % 2 ^ 16 := by
  simp [commandFields]

end Fields

/-- The six fields cover all 32 bits of a word (R65). -/
theorem commandFields_injective : Function.Injective commandFields := by
  intro w v h
  have hopc := congrArg (fun f => f.opc.toNat) h
  have hbo := congrArg (fun f => f.bo.toNat) h
  have hwo := congrArg (fun f => f.wo.toNat) h
  have hrepack := congrArg (fun f => f.repack.toNat) h
  have hrsv := congrArg (fun f => f.rsv.toNat) h
  have hcount := congrArg (fun f => f.count.toNat) h
  simp only [commandFields_opc_toNat, commandFields_bo_toNat, commandFields_wo_toNat, commandFields_repack_toNat,
    commandFields_rsv_toNat, commandFields_count_toNat] at hopc hbo hwo hrepack hrsv hcount
  apply BitVec.eq_of_toNat_eq
  omega

/-- R83's formula puts every argument into its own field and 0 into RSV. -/
theorem commandFields_commandWord (opc : BitVec 8) (bo wo : BitVec 2) (repack : BitVec 1) {count : Nat}
    (h : count < 2 ^ 16) :
    commandFields (commandWord opc bo wo repack count) = ⟨opc, bo, wo, repack, 0, BitVec.ofNat 16 count⟩ := by
  have hopc := opc.isLt
  have hbo := bo.isLt
  have hwo := wo.isLt
  have hrepack := repack.isLt
  simp only [commandFields, commandWord, CommandFields.mk.injEq]
  refine ⟨?opc, ?bo, ?wo, ?repack, ?rsv, ?count⟩ <;> apply BitVec.eq_of_toNat_eq <;> rw [toNat_extractLsb'_ofNat]
  case rsv => change _ = 0; omega
  case count => rw [BitVec.toNat_ofNat]; omega
  all_goals omega

/-! ### The decoder on the fields of a word -/

/-- The decoder, which reads nothing of a word but its fields (R77). -/
def decodeFields (f : CommandFields) : Except IllegalWord Instr :=
  match opcodeRow f.opc with
  | none => .error .opcode
  | some r => decodeRow r f

theorem decodeCmd_eq_decodeFields (w : CommandWord) : decodeCmd w = decodeFields (commandFields w) := rfl

theorem ofNat_toNat_of_countFits {count : Nat} (h : countFits count = true) : (BitVec.ofNat 16 count).toNat = count :=
  (BitVec.toNat_ofNat ..).trans (Nat.mod_eq_of_lt (of_decide_eq_true h))

/-- Decoding the field values that R72 and R73 give a command gives the command. -/
theorem decodeFields_fieldValues {i : Instr} (h : i.wf = true) : decodeFields (fieldValues i) = .ok i := by
  cases i with
  | xfwd8 bo wo | xfwd16 bo wo | xfwd32 bo wo | xfwd64 bo wo | xinv8 bo wo | xinv16 bo wo | xinv32 bo wo | xinv64 bo wo
  | dInitRaw bo wo | dFromRegs bo wo => cases bo <;> cases wo <;> rfl
  | bInit bo wo repack => cases bo <;> cases wo <;> cases repack <;> rfl
  | dFromCoils bo ignoredWo => cases bo <;> rfl
  | dBits count => exact congrArg (Except.ok ∘ Instr.dBits) (ofNat_toNat_of_countFits h)
  | dStr count => exact congrArg (Except.ok ∘ Instr.dStr) (ofNat_toNat_of_countFits h)
  | dSkip count => exact congrArg (Except.ok ∘ Instr.dSkip) (ofNat_toNat_of_countFits h)
  | _ => rfl

/-- Settles O1: the word of a command holds its field values, and the decoder reads the command back from them. -/
theorem decodeOfEncodedCommandIsTheCommand : Obligations.DecodeOfEncodedCommandIsTheCommand := by
  intro i hwf
  rw [decodeCmd_eq_decodeFields, Laws.EncodeFields.all i hwf, decodeFields_fieldValues hwf]

/-- Settles O4: every listed word is, bit for bit, the encoding of its command. -/
theorem workedOutWordsDecodeToTheirCommands : Obligations.WorkedOutWordsDecodeToTheirCommands :=
  have decoded := decodeOfEncodedCommandIsTheCommand
  ⟨decoded (.bInit .big .little false) rfl, decoded (.dFromRegs .little .little) rfl, decoded (.dSkip 2) rfl,
    decoded (.xfwd8 .little .little) rfl, decoded .pack rfl, decoded .bAddU8 rfl, decoded .bEncode rfl,
    decoded (.dInitRaw .big .big) rfl, decoded (.dFromCoils .big 3) rfl, decoded .dU8 rfl, decoded .dReset rfl⟩

/-! ### What a row of the opcode map accepts -/

/-- A field that the group must leave at 0 is not 0 (R72). -/
theorem fieldNotZero_eq_true {n : Nat} {use : FieldUse} {x : BitVec n} :
    fieldNotZero use (x == 0) = true ↔ use = .mustBeZero ∧ x ≠ 0 := by
  cases use <;> simp [fieldNotZero]

theorem unusedFieldSet_eq_true {u : GroupUse} {f : CommandFields} :
    unusedFieldSet u f = true ↔ (u.bo = .mustBeZero ∧ f.bo ≠ 0) ∨ (u.wo = .mustBeZero ∧ f.wo ≠ 0) ∨
      (u.repack = .mustBeZero ∧ f.repack ≠ 0) ∨ (u.count = .mustBeZero ∧ f.count ≠ 0) := by
  simp only [unusedFieldSet, Bool.or_eq_true, fieldNotZero_eq_true, or_assoc]

/-- Code 3 is the one code of no order (R67, R68). -/
theorem ofCode_eq_none {code : BitVec 2} : Endian.ofCode code = none ↔ code = 3 := by
  revert code
  decide

theorem code_of_ofCode {code : BitVec 2} {e : Endian} (h : Endian.ofCode code = some e) : e.code = code := by
  revert code e
  decide

theorem orderField_eq_none {use : FieldUse} {code : BitVec 2} :
    orderField use code = none ↔ use = .used ∧ code = 3 := by
  cases use <;> simp [orderField, ofCode_eq_none]

/-- Why the row of an opcode refuses a word: a field that the group must leave at 0 is not 0, RSV is not 0, or a used order
field holds code 3 (R72, R75). -/
def OpcodeRow.Refuses (r : OpcodeRow) (f : CommandFields) : Prop :=
  unusedFieldSet r.group.use f = true ∨ f.rsv ≠ 0 ∨
    (r.group.use.bo = .used ∧ f.bo = 3) ∨ (r.group.use.wo = .used ∧ f.wo = 3)

/-- A row refuses a word, or it builds the command of the word's orders and remaining fields (R77). -/
theorem decodeRow_cases (r : OpcodeRow) (f : CommandFields) :
    (r.Refuses f ∧ ∃ e, decodeRow r f = .error e) ∨
      (¬r.Refuses f ∧ ∃ bo wo, orderField r.group.use.bo f.bo = some bo ∧ orderField r.group.use.wo f.wo = some wo ∧
        decodeRow r f = .ok (r.build bo wo f)) := by
  unfold OpcodeRow.Refuses decodeRow
  rw [← orderField_eq_none, ← orderField_eq_none]
  by_cases hrsv : f.rsv = 0
  · cases unusedFieldSet r.group.use f with
    | true => simp [hrsv]
    | false =>
      cases orderField r.group.use.bo f.bo with
      | none => simp [hrsv]
      | some bo => cases orderField r.group.use.wo f.wo <;> simp [hrsv]
  · exact .inl ⟨.inr (.inl hrsv), .reserved, if_neg hrsv⟩

/-- What stands in a field of a command's word: the value read from it where the group uses it, 0 where it must be 0, and
whatever the word holds where it is ignored (R72). -/
def FieldUse.held {n : Nat} (use : FieldUse) (value raw : BitVec n) : BitVec n :=
  match use with
  | .used => value
  | .mustBeZero => 0
  | .ignored => raw

/-- The fields of the word of a command that the row builds from two orders and the fields `f`. -/
def OpcodeRow.fields (r : OpcodeRow) (bo wo : Endian) (f : CommandFields) : CommandFields where
  opc := r.opc
  bo := r.group.use.bo.held bo.code f.bo
  wo := r.group.use.wo.held wo.code f.wo
  repack := r.group.use.repack.held f.repack f.repack
  rsv := 0
  count := r.group.use.count.held f.count f.count

/-- A field that the group leaves at 0 where it must holds what the word holds. -/
theorem held_eq_raw {n : Nat} {use : FieldUse} {value raw : BitVec n} (hused : use = .used → value = raw)
    (hzero : ¬(use = .mustBeZero ∧ raw ≠ 0)) : use.held value raw = raw := by
  cases use with
  | used => exact hused rfl
  | mustBeZero => exact (not_not.mp fun hraw => hzero ⟨rfl, hraw⟩).symm
  | ignored => rfl

theorem code_of_orderField {use : FieldUse} {code : BitVec 2} {e : Endian} (h : orderField use code = some e)
    (hused : use = .used) : e.code = code := by
  subst hused
  exact code_of_ofCode h

/-- A row that does not refuse a word drops no bit of it. -/
theorem fields_eq_of_not_refuses {r : OpcodeRow} {f : CommandFields} {bo wo : Endian} (h : ¬r.Refuses f)
    (hopc : r.opc = f.opc) (hbo : orderField r.group.use.bo f.bo = some bo)
    (hwo : orderField r.group.use.wo f.wo = some wo) : r.fields bo wo f = f := by
  simp only [OpcodeRow.Refuses, unusedFieldSet_eq_true, not_or] at h
  obtain ⟨⟨hzbo, hzwo, hzrepack, hzcount⟩, hrsv, -, -⟩ := h
  rw [OpcodeRow.fields, hopc, held_eq_raw (code_of_orderField hbo) hzbo, held_eq_raw (code_of_orderField hwo) hzwo,
    held_eq_raw (fun _ => rfl) hzrepack, held_eq_raw (fun _ => rfl) hzcount, ← not_not.mp hrsv]

/-! ### The rows of the opcode map -/

theorem opcodeRow_eq_some {opc : BitVec 8} {r : OpcodeRow} (h : opcodeRow opc = some r) :
    r ∈ opcodeRows ∧ r.opc = opc :=
  ⟨List.mem_of_find?_eq_some h, by simpa using List.find?_some h⟩

theorem ofBool_beq_one (x : BitVec 1) : BitVec.ofBool (x == 1#1) = x := by
  revert x
  decide

theorem countFits_toNat (x : BitVec 16) : countFits x.toNat = true := decide_eq_true x.isLt

/-- Every row builds well-formed commands. -/
theorem wf_build {r : OpcodeRow} (hr : r ∈ opcodeRows) (bo wo : Endian) (f : CommandFields) :
    (r.build bo wo f).wf = true := by
  revert r
  simp only [opcodeRows, transformRows, builderRows, decoderRows, List.cons_append, List.nil_append,
    List.forall_mem_cons, Instr.wf, countFits_toNat, List.not_mem_nil, false_imp_iff, implies_true, and_self]

/-- The word of the command that a row builds holds the row's opcode and the fields that the row's group lets it hold. -/
theorem fieldValues_build {r : OpcodeRow} (hr : r ∈ opcodeRows) (bo wo : Endian) (f : CommandFields) :
    fieldValues (r.build bo wo f) = r.fields bo wo f := by
  revert r
  simp only [opcodeRows, transformRows, builderRows, decoderRows, List.cons_append, List.nil_append,
    List.forall_mem_cons, fieldValues, OpcodeRow.fields, CommandGroup.use, FieldUse.held, BitVec.ofNat_eq_ofNat,
    ofBool_beq_one, BitVec.ofNat_toNat, BitVec.setWidth_eq, List.not_mem_nil, false_imp_iff, implies_true, and_self]

/-- Settles O2: the command that a row builds from a word holds the word's own fields, and they determine the word. -/
theorem legalWordIsTheEncodingOfItsCommand : Obligations.LegalWordIsTheEncodingOfItsCommand := by
  intro w i h
  rw [decodeCmd_eq_decodeFields, decodeFields] at h
  cases hrow : opcodeRow (commandFields w).opc with
  | none => simp [hrow] at h
  | some r =>
    obtain ⟨hr, hopc⟩ := opcodeRow_eq_some hrow
    have hdecode : decodeRow r (commandFields w) = .ok i := by simpa [hrow] using h
    rcases decodeRow_cases r (commandFields w) with ⟨-, e, herror⟩ | ⟨hlegal, bo, wo, hbo, hwo, hok⟩
    · exact nomatch herror.symm.trans hdecode
    · obtain rfl : r.build bo wo (commandFields w) = i := Except.ok.inj (hok.symm.trans hdecode)
      have hwf := wf_build hr bo wo (commandFields w)
      refine ⟨hwf, commandFields_injective ?_⟩
      rw [Laws.EncodeFields.all _ hwf, fieldValues_build hr, fields_eq_of_not_refuses hlegal hopc hbo hwo]

/-! ### Which words are illegal -/

/-- The opcodes outside the map (R74). -/
abbrev OpcodeGap (opc : Nat) : Prop :=
  opc = 0 ∨ (0x0B ≤ opc ∧ opc ≤ 0x0F) ∨ opc = 0x1E ∨ opc = 0x1F ∨ (0x25 ≤ opc ∧ opc ≤ 0x2F) ∨ 0x42 ≤ opc

/-- The opcodes of the commands that use BO (R72). -/
abbrev UsesBo (opc : Nat) : Prop := (1 ≤ opc ∧ opc ≤ 8) ∨ opc = 0x10 ∨ (0x30 ≤ opc ∧ opc ≤ 0x32)

/-- The opcodes of the commands that use WO (R72). -/
abbrev UsesWo (opc : Nat) : Prop := (1 ≤ opc ∧ opc ≤ 8) ∨ opc = 0x10 ∨ opc = 0x30 ∨ opc = 0x31

/-- The opcodes of the commands that use COUNT (R72). -/
abbrev UsesCount (opc : Nat) : Prop := 0x3E ≤ opc ∧ opc ≤ 0x40

/-- The opcodes of the map are four runs of consecutive numbers (R73). -/
theorem opcodes_eq_ranges : opcodeRows.map (fun r => r.opc.toNat) =
    List.range' 0x01 10 ++ List.range' 0x10 14 ++ List.range' 0x20 5 ++ List.range' 0x30 18 := rfl

theorem opcodeRow_eq_none {opc : BitVec 8} : opcodeRow opc = none ↔ OpcodeGap opc.toNat := by
  have hmem : opcodeRow opc = none ↔ opc.toNat ∉ opcodeRows.map (fun r => r.opc.toNat) := by
    simp [opcodeRow, BitVec.toNat_eq]
  simp only [hmem, opcodes_eq_ranges, List.mem_append, List.mem_range'_1]
  omega

/-- The rows of the map use and leave at 0 the fields that R72 says, by their opcodes. -/
theorem use_iff_of_mem {r : OpcodeRow} (hr : r ∈ opcodeRows) :
    (r.group.use.bo = .used ↔ UsesBo r.opc.toNat) ∧ (r.group.use.bo = .mustBeZero ↔ ¬UsesBo r.opc.toNat) ∧
      (r.group.use.wo = .used ↔ UsesWo r.opc.toNat) ∧
      (r.group.use.wo = .mustBeZero ↔ ¬UsesWo r.opc.toNat ∧ r.opc.toNat ≠ 0x32) ∧
      (r.group.use.repack = .mustBeZero ↔ r.opc.toNat ≠ 0x10) ∧
      (r.group.use.count = .mustBeZero ↔ ¬UsesCount r.opc.toNat) := by
  revert r
  decide

/-- What a row refuses, with the fields as numbers and the groups given by their opcodes (R72, R75). -/
theorem refuses_iff {r : OpcodeRow} (hr : r ∈ opcodeRows) (f : CommandFields) :
    r.Refuses f ↔ (¬UsesBo r.opc.toNat ∧ f.bo.toNat ≠ 0) ∨
      (¬UsesWo r.opc.toNat ∧ r.opc.toNat ≠ 0x32 ∧ f.wo.toNat ≠ 0) ∨ (r.opc.toNat ≠ 0x10 ∧ f.repack.toNat ≠ 0) ∨
      (¬UsesCount r.opc.toNat ∧ f.count.toNat ≠ 0) ∨ f.rsv.toNat ≠ 0 ∨ (UsesBo r.opc.toNat ∧ f.bo.toNat = 3) ∨
      (UsesWo r.opc.toNat ∧ f.wo.toNat = 3) := by
  obtain ⟨hbo, hzbo, hwo, hzwo, hzrepack, hzcount⟩ := use_iff_of_mem hr
  rw [OpcodeRow.Refuses, unusedFieldSet_eq_true, hbo, hzbo, hwo, hzwo, hzrepack, hzcount]
  simp [BitVec.toNat_eq, and_assoc, or_assoc]

/-- The decoder refuses a word for its opcode or by the row of its opcode. -/
theorem decodeFields_isError {f : CommandFields} :
    (∃ e, decodeFields f = .error e) ↔ opcodeRow f.opc = none ∨ ∃ r, opcodeRow f.opc = some r ∧ r.Refuses f := by
  unfold decodeFields
  cases opcodeRow f.opc with
  | none => simp
  | some r =>
    rcases decodeRow_cases r f with ⟨hrefuses, e, herror⟩ | ⟨hlegal, bo, wo, -, -, hok⟩
    · simp [herror, hrefuses]
    · simp [hok, hlegal]

/-- Settles O3: outside the map by `opcodeRow_eq_none`, and on a row by `refuses_iff`. -/
theorem illegalWordsByOpcodeAndField : Obligations.IllegalWordsByOpcodeAndField := by
  intro w
  dsimp only
  rw [decodeCmd_eq_decodeFields, decodeFields_isError, ← commandFields_opc_toNat, ← commandFields_bo_toNat,
    ← commandFields_wo_toNat, ← commandFields_repack_toNat, ← commandFields_rsv_toNat, ← commandFields_count_toNat]
  generalize commandFields w = f
  cases hrow : opcodeRow f.opc with
  | none => exact iff_of_true (.inl rfl) (.inl (opcodeRow_eq_none.mp hrow))
  | some r =>
    obtain ⟨hr, hopc⟩ := opcodeRow_eq_some hrow
    have hgap : ¬OpcodeGap f.opc.toNat := by simp [← opcodeRow_eq_none, hrow]
    rw [or_iff_right hgap, ← hopc, ← refuses_iff hr]
    simp

end Sys2Proof
end

section
/-! The other two statements of the spec's 30_encoding.md: the words of the assembler (R80, R81), and the form of the result
that a successful command answers (R79). -/

namespace Sys2Proof.Machine

/-! ### The assembler's words -/

/-- No opcode has two rows (R73). -/
theorem opcodeRow_of_mem {r : OpcodeRow} (hr : r ∈ opcodeRows) : opcodeRow r.opc = some r := by
  have hnodup : (opcodeRows.map (fun r => r.opc.toNat)).Nodup := by
    rw [opcodes_eq_ranges]
    decide
  cases hrow : opcodeRow r.opc with
  | none => exact absurd (List.find?_eq_none.mp hrow r hr) (by simp)
  | some r' =>
    obtain ⟨hr', hopc⟩ := opcodeRow_eq_some hrow
    rw [List.inj_on_of_nodup_map hnodup hr' hr (congrArg BitVec.toNat hopc)]

theorem defaultCount_eq_zero {r : OpcodeRow} (hr : r ∈ opcodeRows) (hzero : r.group.use.count = .mustBeZero) :
    defaultCount r.mnemonic = 0 := by
  revert r
  decide

theorem countFits_defaultCount (mnemonic : String) : countFits (defaultCount mnemonic) = true := by
  unfold defaultCount
  split <;> rfl

theorem code_ne_three (e : Endian) : e.code ≠ 3 := by cases e <;> decide

theorem eq_none_of_fieldAllowed {α : Type} {use : FieldUse} {field : Option α} (h : fieldAllowed use field = true)
    (hzero : use = .mustBeZero) : field = none := by
  subst hzero
  simpa [fieldAllowed] using h

/-- What the assembler writes into the fields of a word (R81, R83). -/
def AsmLine.fields (l : AsmLine) (r : OpcodeRow) : CommandFields where
  opc := r.opc
  bo := (l.bo.getD .native).code
  wo := (l.wo.getD .native).code
  repack := BitVec.ofBool (l.repack.getD false)
  rsv := 0
  count := BitVec.ofNat 16 (l.count.getD (defaultCount r.mnemonic))

/-- A line that assembles has a form of R80 for a row of the map, and its word holds the line's fields. -/
theorem assemble_eq_some {l : AsmLine} {t : Transaction} (h : assemble l = some t) :
    t.din = l.din ∧ ∃ r ∈ opcodeRows, l.legal r.group.use = true ∧ commandFields t.cmd = l.fields r := by
  unfold assemble at h
  split at h
  next => exact nomatch h
  next r hrow =>
    split at h
    next hlegal =>
      obtain rfl := Option.some.inj h
      have hcount : countFits (l.count.getD (defaultCount r.mnemonic)) = true := by
        cases hl : l.count with
        | none => exact countFits_defaultCount r.mnemonic
        | some count => simpa [AsmLine.legal, hl] using (Bool.and_eq_true_iff.mp hlegal).2
      exact ⟨rfl, r, List.mem_of_find?_eq_some hrow, hlegal,
        commandFields_commandWord _ _ _ _ (of_decide_eq_true hcount)⟩
    next => exact nomatch h

/-- A field that a line of R80 does not write is 0, and a written order is not code 3. -/
theorem not_refuses_fields {l : AsmLine} {r : OpcodeRow} (hr : r ∈ opcodeRows) (h : l.legal r.group.use = true) :
    ¬r.Refuses (l.fields r) := by
  simp only [AsmLine.legal, Bool.and_eq_true] at h
  obtain ⟨⟨⟨⟨⟨⟨hbo, hwo⟩, hrepack⟩, hcount⟩, -⟩, -⟩, -⟩ := h
  rintro (hunused | hrsv | ⟨-, hthree⟩ | ⟨-, hthree⟩)
  · rcases unusedFieldSet_eq_true.mp hunused with ⟨hz, hne⟩ | ⟨hz, hne⟩ | ⟨hz, hne⟩ | ⟨hz, hne⟩
    · exact hne (by rw [AsmLine.fields, eq_none_of_fieldAllowed hbo hz]; rfl)
    · exact hne (by rw [AsmLine.fields, eq_none_of_fieldAllowed hwo hz]; rfl)
    · exact hne (by rw [AsmLine.fields, eq_none_of_fieldAllowed hrepack hz]; rfl)
    · exact hne (by
        rw [AsmLine.fields, eq_none_of_fieldAllowed hcount hz, Option.getD_none, defaultCount_eq_zero hr hz]
        rfl)
  · exact hrsv rfl
  · exact code_ne_three _ hthree
  · exact code_ne_three _ hthree

/-- Settles O5: the row that the line's mnemonic names is the row of the word's opcode, and it does not refuse the word. -/
theorem assembledLineIsALegalTransaction : Obligations.AssembledLineIsALegalTransaction := by
  intro l t h
  obtain ⟨hdin, r, hr, hlegal, hfields⟩ := assemble_eq_some h
  rcases decodeRow_cases r (l.fields r) with ⟨hrefuses, -⟩ | ⟨-, bo, wo, -, -, hok⟩
  · exact absurd hrefuses (not_refuses_fields hr hlegal)
  · have hrow : opcodeRow (l.fields r).opc = some r := opcodeRow_of_mem hr
    have hdecode : decodeCmd t.cmd = .ok (r.build bo wo (l.fields r)) := by
      rw [decodeCmd_eq_decodeFields, hfields, decodeFields, hrow]
      exact hok
    exact ⟨hdin, _, hdecode, (legalWordIsTheEncodingOfItsCommand _ _ hdecode).1⟩

/-! ### The form of a result -/

/-- The reply is an error, or its result has the form. -/
def Reply.HasResult (form : PayloadForm) (r : Reply) : Prop := r.state.status = 0 → r.state.dout.hasForm form = true

theorem Reply.hasResult_ok {form : PayloadForm} {s : State} {out : Payload} (h : out.hasForm form = true) :
    (Reply.ok s out).HasResult form := fun _ => h

theorem Reply.hasResult_err {form : PayloadForm} {s : State} {e : CommandError} : (Reply.err s e).HasResult form :=
  fun hok => absurd hok e.code_ne_zero

theorem computeStateless_hasResult {α : Type} {form : PayloadForm} {operand : Option α} {s : State} {result : α → Payload}
    (h : ∀ x, operand = some x → (result x).hasForm form = true) :
    (computeStateless operand s result).HasResult form := by
  unfold computeStateless
  rcases expectOperand_cases operand s (fun x => .ok s (result x)) with ⟨-, hr⟩ | ⟨x, hx, hr⟩ <;> rw [hr]
  · exact Reply.hasResult_err
  · exact Reply.hasResult_ok (h x hx)

theorem Payload.length_of_bytesOfLength {n : Nat} {p : Payload} {x : List Byte} (h : p.bytesOfLength n = some x) :
    x.length = n := by
  unfold Payload.bytesOfLength at h
  split at h
  · split at h
    next hn => rwa [← Option.some.inj h]
    next => exact nomatch h
  · exact nomatch h

/-- The transform of W/8 bytes is W/8 bytes, in both directions (R87, R99). -/
theorem transform_hasResult (w : Width) (bo wo : Endian) (s : State) :
    (forwardTransform w bo wo s).HasResult (.bytesOfLength w.bytes) ∧
      (inverseTransform w bo wo s).HasResult (.bytesOfLength w.bytes) := by
  have hform : ∀ x, s.din.bytesOfLength w.bytes = some x →
      (Payload.bytes (xform w bo wo x)).hasForm (.bytesOfLength w.bytes) = true := fun x hx =>
    beq_iff_eq.mpr (length_xform w bo wo x (Payload.length_of_bytesOfLength hx))
  exact ⟨computeStateless_hasResult hform, computeStateless_hasResult hform⟩

theorem readAccumulator_hasResult {form : PayloadForm} {s : State} {result : Payload} (h : result.hasForm form = true) :
    (readAccumulator s result).HasResult form := by
  unfold readAccumulator
  rcases builderReady_cases s (expectOperand s.din.noneOf s fun _ => .ok s result) with ⟨-, hr⟩ | ⟨-, hr⟩ <;> rw [hr]
  · exact Reply.hasResult_err
  · exact computeStateless_hasResult fun _ _ => h

theorem decodeBytes_hasResult {form : PayloadForm} {n : Nat} {s : State} {result : List Byte → Payload}
    (h : ∀ bytes, bytes.length = n → (result bytes).hasForm form = true) : (decodeBytes n s result).HasResult form := by
  rcases decodeBytes_cases n s result with ⟨-, hr⟩ | ⟨-, hr⟩ | ⟨-, -, hr⟩ | ⟨-, -, -, hr⟩ | ⟨-, -, hn, hr⟩ <;> rw [hr]
  · exact Reply.hasResult_err
  · exact Reply.hasResult_err
  · exact Reply.hasResult_err
  · exact Reply.hasResult_err
  · exact Reply.hasResult_ok (h _ (length_slice hn))

theorem decodeTyped_hasResult (w : Width) (s : State) : (decodeTyped w s).HasResult (.scalar w) :=
  decodeBytes_hasResult fun _ _ => beq_self_eq_true w

theorem length_unpack (d : List Byte) : (unpack d).length = 8 * d.length := by
  simp [unpack, length_bitsLsbFirst, Nat.mul_comm]

/-- Only the stateless commands, the conversions and the reads at the cursor answer anything but NONE (R79). -/
theorem Effect.hasResult_nothing {s : State} {k : CommandKind} {r : Reply} (h : Effect s k r) (hstateless : k ≠ .stateless)
    (hread : k ≠ .encoderRead) (htake : ∀ n, k ≠ .decoderTake n) : r.HasResult .nothing := by
  cases h with
  | computed => exact absurd rfl hstateless
  | converted => exact absurd rfl hread
  | taken n => exact absurd rfl (htake n)
  | _ => exact fun _ => rfl

/-- The command answers a reply whose result has the form that the table of R79 gives the command. -/
def AnswersResultForm (i : Instr) (s : State) : Prop := ∃ r : Reply, exec i s = respond r ∧ r.HasResult i.resultForm

theorem answersResultForm (i : Instr) (s : State) : AnswersResultForm i s := by
  cases i with
  | xfwd8 | xfwd16 | xfwd32 | xfwd64 => exact ⟨_, rfl, (transform_hasResult _ _ _ s).1⟩
  | xinv8 | xinv16 | xinv32 | xinv64 => exact ⟨_, rfl, (transform_hasResult _ _ _ s).2⟩
  | pack | unpack => exact ⟨_, rfl, computeStateless_hasResult fun _ _ => rfl⟩
  | bEncode | bBuild | bToRegs | bToCoils => exact ⟨_, rfl, readAccumulator_hasResult rfl⟩
  | dU8 | dI8 | dU16 | dI16 | dF16 | dU32 | dI32 | dF32 | dU64 | dI64 | dF64 => exact ⟨_, rfl, decodeTyped_hasResult _ s⟩
  | dBits count =>
    refine ⟨_, rfl, decodeBytes_hasResult fun bytes hlen => beq_iff_eq.mpr ?_⟩
    rw [length_unpack, hlen]
  | dStr count => exact ⟨_, rfl, decodeBytes_hasResult fun _ hlen => beq_iff_eq.mpr hlen⟩
  | dSkip count => exact ⟨_, rfl, decodeBytes_hasResult fun _ _ => rfl⟩
  | _ =>
    obtain ⟨r, hexec, heffect⟩ := exec_effect _ s
    exact ⟨r, hexec, heffect.hasResult_nothing nofun nofun nofun⟩

/-- Settles O26: the next state is the response to a reply whose result has the form. -/
theorem successfulCommandAnswersItsResultForm : Obligations.SuccessfulCommandAnswersItsResultForm := by
  intro i s t h hok
  obtain ⟨r, hexec, hresult⟩ := answersResultForm i s
  obtain rfl := respond_eq_next.mp (hexec.symm.trans h)
  exact hresult hok

end Sys2Proof.Machine
end

section
/-! The statements of the spec's 41_word_order.md: where the transform takes each byte from, its special cases, that it is its
own inverse, and the commands XFWD8 to XFWD64 and XINV8 to XINV64 (R87 to R99). -/

namespace Sys2Proof.Machine

/-! ### Two-byte units -/

/-- Every unit of the sequence is two bytes, as those of an even number of bytes are (R85). -/
def TwoByteUnits (u : List (List Byte)) : Prop := ∀ g ∈ u, g.length = 2

theorem twoByteUnits_units {x : List Byte} (hx : 2 ∣ x.length) : TwoByteUnits (units x) := by
  unfold units
  induction x using chunksOf_induction (k := 2) (by decide) with
  | nil => exact nofun
  | short s hs hl =>
    have hpos : 0 < s.length := List.length_pos_of_ne_nil hs
    omega
  | piece g s hg ih =>
    rw [List.length_append, hg] at hx
    rw [chunksOf_append (by decide) g s hg]
    exact List.forall_mem_cons.mpr ⟨hg, ih (by omega)⟩

theorem units_flatten {u : List (List Byte)} (hu : TwoByteUnits u) : units u.flatten = u := by
  induction u with
  | nil => rfl
  | cons g u ih =>
    obtain ⟨hg, hu⟩ := List.forall_mem_cons.mp hu
    rw [List.flatten_cons, units, chunksOf_append (by decide) g _ hg]
    exact congrArg (g :: ·) (ih hu)

theorem flatten_units (x : List Byte) : (units x).flatten = x := flatten_chunksOf (by decide) x

theorem length_units (x : List Byte) : (units x).length = (x.length + 1) / 2 := length_chunksOf (by decide) x

/-- Byte `2k + b` of two-byte units is byte `b` of unit `k`. -/
theorem getElem?_flatten_units {u : List (List Byte)} (hu : TwoByteUnits u) (k : Nat) {b : Nat} (hb : b < 2) :
    u.flatten[2 * k + b]? = u[k]?.bind (·[b]?) := by
  induction u generalizing k with
  | nil => rfl
  | cons g u ih =>
    obtain ⟨hg, hu⟩ := List.forall_mem_cons.mp hu
    cases k with
    | zero => rw [List.flatten_cons, List.getElem?_append_left (by omega)]; simp
    | succ k =>
      rw [List.flatten_cons, List.getElem?_append_right (by omega), hg, List.getElem?_cons_succ, ← ih hu k]
      congr 1
      omega

/-! ### The byte swap and the unit reversal -/

theorem swapUnit_involutive : Function.Involutive swapUnit
  | [] | [_] | [_, _] | _ :: _ :: _ :: _ => rfl

theorem length_swapUnit {g : List Byte} (hg : g.length = 2) : (swapUnit g).length = 2 := by
  obtain ⟨a, b, rfl⟩ := length_two hg
  rfl

theorem getElem?_swapUnit {g : List Byte} (hg : g.length = 2) {b : Nat} (hb : b < 2) : (swapUnit g)[b]? = g[1 - b]? := by
  obtain ⟨a, c, rfl⟩ := length_two hg
  obtain rfl | rfl : b = 0 ∨ b = 1 := by omega
  · rfl
  · rfl

theorem orderBytes_little (u : List (List Byte)) : orderBytes .little u = u.map swapUnit := rfl

theorem orderBytes_of_ne_little {bo : Endian} (h : bo ≠ .little) (u : List (List Byte)) : orderBytes bo u = u :=
  if_neg (mt eff_eq_little.mp h)

theorem orderUnits_little (u : List (List Byte)) : orderUnits .little u = u.reverse := rfl

theorem orderUnits_of_ne_little {wo : Endian} (h : wo ≠ .little) (u : List (List Byte)) : orderUnits wo u = u :=
  if_neg (mt eff_eq_little.mp h)

theorem TwoByteUnits.orderBytes {u : List (List Byte)} (hu : TwoByteUnits u) (bo : Endian) :
    TwoByteUnits (orderBytes bo u) := by
  by_cases hbo : bo = .little
  · rw [hbo, orderBytes_little]
    exact List.forall_mem_map.mpr fun g hg => length_swapUnit (hu g hg)
  · rwa [orderBytes_of_ne_little hbo]

theorem TwoByteUnits.orderUnits {u : List (List Byte)} (hu : TwoByteUnits u) (wo : Endian) :
    TwoByteUnits (orderUnits wo u) := by
  by_cases hwo : wo = .little
  · rw [hwo, orderUnits_little]
    exact fun g hg => hu g (List.mem_reverse.mp hg)
  · rwa [orderUnits_of_ne_little hwo]

theorem length_orderBytes (bo : Endian) (u : List (List Byte)) : (orderBytes bo u).length = u.length := by
  unfold orderBytes
  split
  · exact List.length_map _
  · rfl

/-- The byte swap undoes itself (R99). -/
theorem orderBytes_orderBytes (bo : Endian) (u : List (List Byte)) : orderBytes bo (orderBytes bo u) = u := by
  by_cases hbo : bo = .little
  · rw [hbo, orderBytes_little, orderBytes_little, List.map_map, swapUnit_involutive.comp_self, List.map_id]
  · rw [orderBytes_of_ne_little hbo, orderBytes_of_ne_little hbo]

/-- The unit reversal undoes itself (R99). -/
theorem orderUnits_orderUnits (wo : Endian) (u : List (List Byte)) : orderUnits wo (orderUnits wo u) = u := by
  by_cases hwo : wo = .little
  · rw [hwo, orderUnits_little, orderUnits_little, List.reverse_reverse]
  · rw [orderUnits_of_ne_little hwo, orderUnits_of_ne_little hwo]

/-- The two steps of the transform commute (R99). -/
theorem orderUnits_orderBytes (bo wo : Endian) (u : List (List Byte)) :
    orderUnits wo (orderBytes bo u) = orderBytes bo (orderUnits wo u) := by
  by_cases hbo : bo = .little
  · by_cases hwo : wo = .little
    · rw [hbo, hwo, orderUnits_little, orderUnits_little, orderBytes_little, orderBytes_little, List.map_reverse]
    · rw [orderUnits_of_ne_little hwo, orderUnits_of_ne_little hwo]
  · rw [orderBytes_of_ne_little hbo, orderBytes_of_ne_little hbo]

/-- The byte swap takes byte `b` of a unit from the other byte of the same unit (R86). -/
theorem getElem?_flatten_orderBytes {u : List (List Byte)} (hu : TwoByteUnits u) (bo : Endian) (k : Nat) {b : Nat}
    (hb : b < 2) :
    (orderBytes bo u).flatten[2 * k + b]? = u.flatten[2 * k + if bo = .little then 1 - b else b]? := by
  by_cases hbo : bo = .little
  · rw [getElem?_flatten_units (hu.orderBytes bo) k hb, if_pos hbo, getElem?_flatten_units hu k (by omega), hbo,
      orderBytes_little, List.getElem?_map]
    cases hk : u[k]? with
    | none => rfl
    | some g => exact getElem?_swapUnit (hu g (List.mem_of_getElem? hk)) hb
  · rw [orderBytes_of_ne_little hbo, if_neg hbo]

/-- The unit reversal takes unit `k` from the unit as far from the other end (R87). -/
theorem getElem?_flatten_orderUnits {u : List (List Byte)} (hu : TwoByteUnits u) (wo : Endian) {k b : Nat}
    (hk : k < u.length) (hb : b < 2) :
    (orderUnits wo u).flatten[2 * k + b]? =
      u.flatten[2 * (if wo = .little then u.length - 1 - k else k) + b]? := by
  by_cases hwo : wo = .little
  · rw [getElem?_flatten_units (hu.orderUnits wo) k hb, if_pos hwo, getElem?_flatten_units hu _ hb, hwo,
      orderUnits_little, List.getElem?_reverse hk]
  · rw [orderUnits_of_ne_little hwo, if_neg hwo]

/-! ### The transform -/

theorem xform_w8 (bo wo : Endian) (x : List Byte) : xform .w8 bo wo x = x := rfl

theorem xform_of_ne_w8 {w : Width} (hw : w ≠ .w8) (bo wo : Endian) (x : List Byte) :
    xform w bo wo x = (orderUnits wo (orderBytes bo (units x))).flatten := by
  cases w with
  | w8 => exact absurd rfl hw
  | w16 | w32 | w64 => rfl

theorem two_dvd_bytes {w : Width} (hw : w ≠ .w8) : 2 ∣ w.bytes := by
  revert hw
  cases w <;> decide

/-- The transform is its own inverse, as the byte swap and the unit reversal are and commute (R99). -/
theorem xform_xform (w : Width) (bo wo : Endian) {x : List Byte} (hx : x.length = w.bytes) :
    xform w bo wo (xform w bo wo x) = x := by
  by_cases hw : w = .w8
  · rw [hw, xform_w8, xform_w8]
  · have hu : TwoByteUnits (units x) := twoByteUnits_units (hx ▸ two_dvd_bytes hw)
    rw [xform_of_ne_w8 hw, xform_of_ne_w8 hw, units_flatten ((hu.orderBytes bo).orderUnits wo),
      ← orderUnits_orderBytes, orderUnits_orderUnits, orderBytes_orderBytes, flatten_units]

/-- Without a LITTLE order no byte moves (R90). -/
theorem xform_of_ne_little (w : Width) {bo wo : Endian} (x : List Byte) (hbo : bo ≠ .little) (hwo : wo ≠ .little) :
    xform w bo wo x = x := by
  by_cases hw : w = .w8
  · rw [hw, xform_w8]
  · rw [xform_of_ne_w8 hw, orderBytes_of_ne_little hbo, orderUnits_of_ne_little hwo, flatten_units]

/-- Settles O44: byte `j` is byte `j % 2` of unit `j / 2`, and each of the two steps takes it from where its lemma says. -/
theorem transformMovesBytesByTheFormula : Obligations.TransformMovesBytesByTheFormula := by
  intro w bo wo x hx
  refine ⟨length_xform w bo wo x hx, fun hw => hw ▸ xform_w8 bo wo x, fun j hw hj => ?_⟩
  have hdvd : 2 ∣ w.bytes := two_dvd_bytes hw
  have hu : TwoByteUnits (units x) := twoByteUnits_units (hx ▸ hdvd)
  have hn : (orderBytes bo (units x)).length = w.bytes / 2 := by
    rw [length_orderBytes, length_units, hx]
    omega
  have hb : j % 2 < 2 := Nat.mod_lt j (by decide)
  calc (xform w bo wo x)[j]?
      = (orderUnits wo (orderBytes bo (units x))).flatten[2 * (j / 2) + j % 2]? := by
        rw [xform_of_ne_w8 hw, Nat.div_add_mod]
    _ = (orderBytes bo (units x)).flatten[2 * (if wo = .little then w.bytes / 2 - 1 - j / 2 else j / 2) + j % 2]? := by
        rw [getElem?_flatten_orderUnits (hu.orderBytes bo) wo (by omega) hb, hn]
    _ = _ := by rw [getElem?_flatten_orderBytes hu bo _ hb, flatten_units]

/-- Settles O45: width 16 by the two values of `xform_w16`, the other clauses by the lemma for each. -/
theorem transformSpecialCases : Obligations.TransformSpecialCases := by
  refine ⟨fun bo wo b => xform_w8 bo wo [b], fun bo wo x hx => ?_, fun w bo wo x _ hbo hwo => xform_of_ne_little w x hbo hwo⟩
  obtain ⟨a, b, rfl⟩ := length_two hx
  rw [xform_w16, xform_w16]
  exact ⟨rfl, rfl⟩

/-! ### The transform commands -/

theorem Payload.bytesOfLength_bytes {n : Nat} {x : List Byte} (hx : x.length = n) :
    (Payload.bytes x).bytesOfLength n = some x := if_pos hx

/-- Every XFWD answers the transform of its operand (R91 to R94). -/
theorem respond_forwardTransform {w : Width} {s : State} {x : List Byte} (hd : s.din = .bytes x) (hx : x.length = w.bytes)
    (bo wo : Endian) :
    respond (forwardTransform w bo wo s) = .next { s with status := 0, dout := .bytes (xform w bo wo x) } := by
  have hoperand : s.din.bytesOfLength w.bytes = some x := hd ▸ Payload.bytesOfLength_bytes hx
  rw [forwardTransform, computeStateless, expectOperand_some hoperand]
  rfl

/-- The inverse transform is the same function (R99), so the commands compute the same reply. -/
theorem inverseTransform_eq_forwardTransform (w : Width) (bo wo : Endian) (s : State) :
    inverseTransform w bo wo s = forwardTransform w bo wo s := rfl

/-- Every XINV answers the bytes whose transform its operand is (R95 to R98). -/
theorem respond_inverseTransform {w : Width} {s : State} {y : List Byte} (hd : s.din = .bytes y) (hy : y.length = w.bytes)
    (bo wo : Endian) :
    ∃ x, x.length = w.bytes ∧ xform w bo wo x = y ∧
      respond (inverseTransform w bo wo s) = .next { s with status := 0, dout := .bytes x } := by
  refine ⟨xform w bo wo y, length_xform w bo wo y hy, xform_xform w bo wo hy, ?_⟩
  rw [inverseTransform_eq_forwardTransform, respond_forwardTransform hd hy]

/-- Settles O27: each command is the forward transform at its width. -/
theorem forwardTransformCommandsAnswerTheTransform : Obligations.ForwardTransformCommandsAnswerTheTransform :=
  fun _ bo wo _ hd =>
    ⟨fun hx => respond_forwardTransform (w := .w8) hd hx bo wo, fun hx => respond_forwardTransform (w := .w16) hd hx bo wo,
      fun hx => respond_forwardTransform (w := .w32) hd hx bo wo, fun hx => respond_forwardTransform (w := .w64) hd hx bo wo⟩

/-- Settles O28: each command is the inverse transform at its width. -/
theorem inverseTransformCommandsUndoTheTransform : Obligations.InverseTransformCommandsUndoTheTransform :=
  fun _ bo wo _ hd =>
    ⟨fun hy => respond_inverseTransform (w := .w8) hd hy bo wo, fun hy => respond_inverseTransform (w := .w16) hd hy bo wo,
      fun hy => respond_inverseTransform (w := .w32) hd hy bo wo, fun hy => respond_inverseTransform (w := .w64) hd hy bo wo⟩

end Sys2Proof.Machine
end

section
/-! The statements of the spec's 42_builder.md: the scalar encodings, what every command of the encoder channel does, the pairs,
registers and coils of the accumulator, and the laws that go from the Builder to the Decoder (R38, R101 to R127, R142 to R149,
R166, R167). -/

namespace Sys2Proof.Machine

/-! ### The scalar encodings -/

/-- The bytes of R101 and R102 are the transform of the canonical encoding too. -/
theorem encodeScalar_eq_xform (w : Width) (bo wo : Endian) (v : Nat) :
    encodeScalar w bo wo v = xform w bo wo (beBytes w.bytes v) := by
  cases w with
  | w8 => simp [encodeScalar, enc8, xform_w8, Width.bytes, beBytes_succ, beBytes_zero]
  | w16 =>
    have hx := (transformSpecialCases.2.1 bo wo (beBytes 2 v) (length_beBytes 2 v)).2
    simp only [encodeScalar, enc16, eff_eq_little, Width.bytes, hx]
  | w32 | w64 => rfl

/-- The numbers of R148 are the big-endian value of the transform too. -/
theorem decodeScalar_eq_beValue_xform (w : Width) (bo wo : Endian) {x : List Byte} (hx : x.length = w.bytes) :
    decodeScalar w bo wo x = beValue (xform w bo wo x) := by
  cases w with
  | w8 =>
    obtain ⟨b, rfl⟩ := List.length_eq_one_iff.mp hx
    simp [decodeScalar, dec8, xform_w8, beValue]
  | w16 =>
    rw [(transformSpecialCases.2.1 bo wo x hx).2, apply_ite beValue]
    simp only [decodeScalar, dec16, eff_eq_little]
  | w32 | w64 => rfl

/-- Settles O47: `encodeScalar_eq_xform` and `decodeScalar_eq_beValue_xform`, each by the four widths. -/
theorem everyScalarEncodingIsTheTransform : Obligations.EveryScalarEncodingIsTheTransform :=
  ⟨fun w bo wo p => encodeScalar_eq_xform w bo wo p.toNat, fun w bo wo _ hx => decodeScalar_eq_beValue_xform w bo wo hx⟩

theorem pow_bytes (w : Width) : 256 ^ w.bytes = 2 ^ w.bits := by cases w <;> rfl

/-- Decoding undoes encoding under the same orders, as the transform undoes itself and `BEval` undoes `BE_n`. -/
theorem decodeScalar_encodeScalar (w : Width) (bo wo : Endian) (p : BitVec w.bits) :
    decodeScalar w bo wo (encodeScalar w bo wo p.toNat) = p.toNat := by
  rw [decodeScalar_eq_beValue_xform w bo wo (length_encodeScalar w bo wo _), encodeScalar_eq_xform,
    xform_xform w bo wo (length_beBytes _ _), beValue_beBytes, pow_bytes, Nat.mod_eq_of_lt p.isLt]

/-! ### What the commands of the encoder channel do -/

theorem bInit_opens {s : State} {ch : List (List Byte)} (hd : s.din.seedChunks = some ch)
    (hcap : WithinCapacity s.cfg.encCap ch.flatten.length) (bo wo : Endian) (repack : Bool) :
    exec (.bInit bo wo repack) s = respond (.ok (s.openEncoder bo wo repack ch) .none) := by
  rw [exec_bInit, constructEncoder, expectOperand_some hd, if_pos ((fitsCapacity_iff _ _).mpr hcap)]

theorem withinCapacity_zero (cap : Option Nat) : WithinCapacity cap 0 := fun _ _ => Nat.zero_le _

/-- Settles O30: `bInit_opens` with no chunk, which fits every capacity, or with the seed as the one chunk. -/
theorem bInitOpensAnEncoderSession : Obligations.BInitOpensAnEncoderSession := by
  intro s bo wo repack
  constructor
  · intro hd
    exact bInit_opens (by rw [hd]; rfl) (withinCapacity_zero _) bo wo repack
  · intro seed hd hcap
    exact bInit_opens (ch := [seed]) (by rw [hd]; rfl) (by simpa using hcap) bo wo repack

/-- A chunk that fits is appended and nothing else changes but the response (R46). -/
theorem AppendsChunk.fits {i : Instr} {s : State} {chunk : List Byte} (h : AppendsChunk i s chunk)
    (hready : s.enc.state = .ready) (hcap : WithinCapacity s.cfg.encCap (s.enc.flat.length + chunk.length)) :
    exec i s = respond (.ok (s.setChunks (s.enc.chunks ++ [chunk])) .none) := by
  rw [AppendsChunk, builderReady_ready hready, appendChunk, if_pos ((fitsCapacity_iff _ _).mpr hcap)] at h
  exact h

/-- Settles O31: the chunk of `scalarAdd_appendsChunk` fits, and it is the transform by `encodeScalar_eq_xform`. -/
theorem scalarAddsAppendTheTransformedEncoding : Obligations.ScalarAddsAppendTheTransformedEncoding := by
  intro c hc s p hready hd hcap
  rw [← encodeScalar_eq_xform]
  exact (scalarAdd_appendsChunk hc hd).fits hready (by rwa [length_encodeScalar])

/-- Settles O32: the chunks of `bAddStr_appendsChunk` and `bAddBits_appendsChunk` fit. -/
theorem stringAndBitAddsAppendTheirBytes : Obligations.StringAndBitAddsAppendTheirBytes := by
  constructor
  · intro s x hready hd hcap
    exact (bAddStr_appendsChunk hd).fits hready hcap
  · intro s b hready hd hcap
    exact (bAddBits_appendsChunk hd).fits hready (by rwa [length_pack])

theorem readAccumulator_ready {s : State} (hready : s.enc.state = .ready) (hd : s.din = .none) (result : Payload) :
    readAccumulator s result = .ok s result := by
  rw [readAccumulator, builderReady_ready hready, expectOperand_some (Payload.noneOf_eq_some.mpr hd)]

/-- Settles O33: each conversion is `readAccumulator` with its own result. -/
theorem conversionsAnswerTheAccumulator : Obligations.ConversionsAnswerTheAccumulator := by
  intro s hready hd
  have hread (result : Payload) : respond (readAccumulator s result) = respond (.ok s result) :=
    congrArg respond (readAccumulator_ready hready hd result)
  exact ⟨hread _, hread _, hread _, hread _⟩

/-- Settles O34: both checks pass, and the write is `setChunks []`. -/
theorem bResetEmptiesTheAccumulator : Obligations.BResetEmptiesTheAccumulator := by
  intro s hready hd
  rw [exec, execBReset, builderReady_ready hready, expectOperand_some (Payload.noneOf_eq_some.mpr hd)]
  rfl

/-! ### Frames of the constructors and B_RESET -/

theorem Payload.flatten_seedChunks {p : Payload} {ch : List (List Byte)} (h : p.seedChunks = some ch) :
    ch.flatten = p.bytesOf.getD [] := by
  cases p with
  | none | bytes => cases h; simp [Payload.bytesOf]
  | _ => exact nomatch h

theorem Reply.status_err_ne_zero (s : State) (e : CommandError) : (Reply.err s e).state.status ≠ 0 := e.code_ne_zero

/-- A B_INIT that succeeds leaves exactly the seed's bytes (R105). -/
theorem Effect.flat_of_constructed {s : State} {r : Reply} (h : Effect s .encoderConstruct r) (hok : r.state.status = 0) :
    r.state.enc.flat = s.din.bytesOf.getD [] := by
  cases h with
  | opened bo wo repack ch hd => exact Payload.flatten_seedChunks hd
  | seedTooLong | rejected | noEncoder | noDecoder | aborted => exact absurd hok (Reply.status_err_ne_zero _ _)

/-- A B_RESET that succeeds leaves no byte (R127). -/
theorem Effect.flat_of_cleared {s : State} {r : Reply} (h : Effect s .encoderClear r) (hok : r.state.status = 0) :
    r.state.enc.flat = [] := by
  cases h with
  | cleared => rfl
  | rejected | noEncoder | noDecoder | aborted => exact absurd hok (Reply.status_err_ne_zero _ _)

/-- Settles O42: what is kept is read off the `Effect`, and `flat_of_constructed` and `flat_of_cleared` give the bytes after a
success. -/
theorem frameOfTheConstructorsAndBReset : Obligations.FrameOfTheConstructorsAndBReset := by
  intro i s t h
  obtain ⟨r, rfl, heffect⟩ := exec_next h
  have hkeep : KeepsInputs s r.state := Reply.keepsInputs_state heffect.channelsOnly.keepsInputs
  generalize i.kind = k at heffect ⊢
  refine ⟨fun hkind => ?encoder, fun hkind => ?decoder⟩
  case encoder =>
    rcases hkind with rfl | rfl
    · refine ⟨hkeep, heffect.dec_eq rfl, fun hok a => ?_, nofun⟩
      rw [if_pos rfl, State.encoderByte, heffect.flat_of_constructed hok]
    · refine ⟨hkeep, heffect.dec_eq rfl, fun hok a => ?_, fun _ => heffect.sameEncoderConfig nofun⟩
      rw [if_neg nofun, State.encoderByte, heffect.flat_of_cleared hok, List.getElem?_nil]
  case decoder =>
    subst hkind
    have henc : r.state.enc = s.enc := heffect.enc_eq (.inl rfl)
    exact ⟨hkeep, henc, State.encoderByte_congr (by rw [henc])⟩

/-! ### The pairs of the accumulator -/

theorem build_nil : build [] = [] := rfl

theorem build_singleton (a : Byte) : build [a] = [(a, 0)] := rfl

theorem padEven_cons_cons (a b : Byte) (e : List Byte) : padEven (a :: b :: e) = a :: b :: padEven e := by
  simp only [padEven, List.length_cons, Nat.add_assoc, Nat.add_mod_right, List.cons_append, apply_ite (a :: b :: ·)]

theorem build_cons_cons (a b : Byte) (e : List Byte) : build (a :: b :: e) = (a, b) :: build e := by
  rw [build, padEven_cons_cons, pairsOfBytes, build]

/-- The pairs hold the bytes rounded up to an even number (R121, R129). -/
theorem two_mul_length_build : ∀ e : List Byte, 2 * (build e).length = e.length + e.length % 2
  | [] | [_] => rfl
  | a :: b :: e => by
    have ih := two_mul_length_build e
    simp only [build_cons_cons, List.length_cons]
    omega

/-- Pair `i` is bytes `2i` and `2i + 1`, the second 0 where there is none (R121). -/
theorem getElem?_build : ∀ (e : List Byte) {i : Nat}, i < (build e).length →
    ∃ a, e[2 * i]? = some a ∧ (build e)[i]? = some (a, (e[2 * i + 1]?).getD 0)
  | [], _, hi => absurd hi (Nat.not_lt_zero _)
  | [a], i, hi => by
    obtain rfl : i = 0 := Nat.lt_one_iff.mp hi
    exact ⟨a, rfl, rfl⟩
  | a :: b :: e, 0, _ => ⟨a, rfl, by rw [build_cons_cons]; rfl⟩
  | a :: b :: e, i + 1, hi => by
    rw [build_cons_cons, List.length_cons] at hi
    rw [build_cons_cons]
    exact getElem?_build e (Nat.lt_of_succ_lt_succ hi)

/-- Settles O51: `two_mul_length_build` and `getElem?_build`, and B_BUILD is a command that stores nothing. -/
theorem buildPairsTheEvenPaddedBytes : Obligations.BuildPairsTheEvenPaddedBytes := by
  refine ⟨fun e => ⟨two_mul_length_build e, fun i hi => ?_⟩, fun s t h => ?_⟩
  · obtain ⟨a, ha, hpair⟩ := getElem?_build e hi
    exact ⟨a, _, hpair, ha, rfl⟩
  · obtain ⟨-, henc, -⟩ := frameOfTheCommandsThatStoreNothing .bBuild s t h (.inr (.inl rfl))
    rw [henc]

/-! ### Registers and coils -/

theorem toNat_ofNat_two_bytes (a b : Byte) : (BitVec.ofNat 16 (a.toNat * 256 + b.toNat)).toNat = a.toNat * 256 + b.toNat := by
  rw [BitVec.toNat_ofNat, Nat.mod_eq_of_lt]
  omega

theorem toNat_pairRegister (repack : Bool) (bo : Endian) (a b : Byte) :
    (pairRegister repack bo (a, b)).toNat =
      if repack = true ∧ bo = .little then b.toNat * 256 + a.toNat else a.toNat * 256 + b.toNat := by
  simp only [pairRegister, Bool.and_eq_true, beq_iff_eq, eff_eq_little, apply_ite BitVec.toNat, toNat_ofNat_two_bytes]

theorem length_toRegs (repack : Bool) (bo : Endian) (q : List (Byte × Byte)) : (toRegs repack bo q).length = q.length :=
  List.length_map _

theorem toCoils_cons (x : Register) (r : List Register) : toCoils (x :: r) = (bitsLsbFirst x).reverse ++ toCoils r := by
  simp [toCoils]

theorem length_toCoils (r : List Register) : (toCoils r).length = 16 * r.length := by
  simp [toCoils, length_bitsLsbFirst, Nat.mul_comm]

/-- Coil `16j + i` is bit `15 - i` of register `j` (R125). -/
theorem getElem?_toCoils {r : List Register} {j i : Nat} {x : Register} (hj : r[j]? = some x) (hi : i < 16) :
    (toCoils r)[16 * j + i]? = some (x.getLsbD (15 - i)) := by
  induction r generalizing j with
  | nil => exact nomatch hj
  | cons y r ih =>
    have hlen : (bitsLsbFirst y).reverse.length = 16 := by rw [List.length_reverse, length_bitsLsbFirst]
    rw [toCoils_cons]
    cases j with
    | zero =>
      obtain rfl : y = x := Option.some.inj hj
      rw [Nat.mul_zero, Nat.zero_add, List.getElem?_append_left (by omega),
        List.getElem?_reverse (by rwa [length_bitsLsbFirst]), length_bitsLsbFirst]
      exact getElem?_bitsLsbFirst y (by omega)
    | succ j =>
      rw [List.getElem?_append_right (by omega), hlen, show 16 * (j + 1) + i - 16 = 16 * j + i by omega]
      exact ih hj

/-- Settles O52: `toNat_pairRegister` for the register of a pair, `getElem?_toCoils` for the coils of a register. -/
theorem registersAndCoilsOfPairs : Obligations.RegistersAndCoilsOfPairs := by
  refine ⟨fun repack bo q => ⟨length_toRegs repack bo q, fun i a b hi => ?_⟩,
    fun r => ⟨length_toCoils r, fun j i x hj hi => getElem?_toCoils hj hi⟩⟩
  exact ⟨pairRegister repack bo (a, b), by rw [toRegs, List.getElem?_map, hi]; rfl, toNat_pairRegister repack bo a b⟩

/-! ### Registers and coils as bytes -/

theorem beBytes_two (a b : Byte) : beBytes 2 (a.toNat * 256 + b.toNat) = [a, b] := by
  simpa [beValue] using beBytes_beValue [a, b]

/-- Every register is two bytes. -/
theorem exists_bytes_of_register (x : Register) : ∃ a b : Byte, x.toNat = a.toNat * 256 + b.toNat := by
  obtain ⟨a, b, hbytes⟩ := length_two (length_beBytes 2 x.toNat)
  have hvalue := beValue_beBytes 2 x.toNat
  rw [hbytes, Nat.mod_eq_of_lt (show x.toNat < 256 ^ 2 from x.isLt)] at hvalue
  exact ⟨a, b, by rw [← hvalue]; simp [beValue]⟩

theorem regsToBytes_cons (x : Register) (r : List Register) : regsToBytes (x :: r) = beBytes 2 x.toNat ++ regsToBytes r := rfl

theorem toRegs_cons (repack : Bool) (bo : Endian) (x : Byte × Byte) (q : List (Byte × Byte)) :
    toRegs repack bo (x :: q) = pairRegister repack bo x :: toRegs repack bo q := rfl

theorem beBytes_pairRegister_false (bo : Endian) (a b : Byte) : beBytes 2 (pairRegister false bo (a, b)).toNat = [a, b] := by
  rw [toNat_pairRegister, if_neg (by simp), beBytes_two]

/-- Without repack the registers hold the bytes in order, and the pad (R121, R123, R142). -/
theorem regsToBytes_toRegs_build (bo : Endian) : ∀ e : List Byte, regsToBytes (toRegs false bo (build e)) = padEven e
  | [] => rfl
  | [a] => by
    rw [build_singleton, toRegs_cons, regsToBytes_cons, beBytes_pairRegister_false]
    rfl
  | a :: b :: e => by
    rw [build_cons_cons, toRegs_cons, regsToBytes_cons, beBytes_pairRegister_false, padEven_cons_cons,
      regsToBytes_toRegs_build bo e]
    rfl

/-- The bits of a register are those of its low byte, then those of its high byte. -/
theorem bitsLsbFirst_register {x : Register} {a b : Byte} (hx : x.toNat = a.toNat * 256 + b.toNat) :
    bitsLsbFirst x = bitsLsbFirst b ++ bitsLsbFirst a := by
  have hbit (i : Nat) : x.getLsbD i = if i < 8 then b.getLsbD i else a.getLsbD (i - 8) := by
    have hsplit : x.toNat = 2 ^ 8 * a.toNat + b.toNat := by omega
    simp only [← BitVec.testBit_toNat, hsplit, Nat.testBit_two_pow_mul_add a.toNat b.isLt i]
  unfold bitsLsbFirst
  rw [show List.range 16 = List.range (8 + 8) from rfl, List.range_add, List.map_append, List.map_map]
  congr 1
  · refine List.map_congr_left fun i hi => ?_
    rw [hbit, if_pos (List.mem_range.mp hi)]
  · refine List.map_congr_left fun i _ => ?_
    simp [hbit]

theorem pack_bitsLsbFirst (b : Byte) : pack (bitsLsbFirst b) = [b] := by
  have hlen : (bitsLsbFirst b).length = 8 := length_bitsLsbFirst b
  rw [pack_short (List.ne_nil_of_length_pos (by omega)) hlen.le, packByte_bitsLsbFirst]

theorem padCoils_of_dvd {c : List Bool} (h : 8 ∣ c.length) : padCoils c = c := by
  simp [padCoils, Nat.mod_eq_zero_of_dvd h]

/-- The two groups of a register's coils pack into its two bytes, high byte first. -/
theorem packReversedGroups_toCoils (r : List Register) :
    ((chunksOf 8 (toCoils r)).flatMap fun g => pack g.reverse) = regsToBytes r := by
  induction r with
  | nil => rfl
  | cons x r ih =>
    obtain ⟨a, b, hx⟩ := exists_bytes_of_register x
    have hlen (y : Byte) : (bitsLsbFirst y).reverse.length = 8 := by rw [List.length_reverse, length_bitsLsbFirst]
    rw [toCoils_cons, bitsLsbFirst_register hx, List.reverse_append, List.append_assoc,
      chunksOf_append (by decide) _ _ (hlen a), chunksOf_append (by decide) _ _ (hlen b), List.flatMap_cons,
      List.flatMap_cons, ih, List.reverse_reverse, List.reverse_reverse, pack_bitsLsbFirst, pack_bitsLsbFirst,
      regsToBytes_cons, hx, beBytes_two]
    rfl

/-- The coils of a register sequence give the bytes of the registers (R167). -/
theorem coilsToBytes_toCoils (r : List Register) : coilsToBytes (toCoils r) = regsToBytes r := by
  have hdvd : 8 ∣ (toCoils r).length := by rw [length_toCoils]; omega
  rw [coilsToBytes, padCoils_of_dvd hdvd, packReversedGroups_toCoils]

/-! ### The coil round trip -/

/-- The two states show the same STATUS, decoder session, buffer and cursor. -/
def SameSession (t u : State) : Prop :=
  t.status = u.status ∧ t.dec.state = u.dec.state ∧ t.dec.buf = u.dec.buf ∧ t.dec.cur = u.dec.cur

/-- The orders of a construction touch neither its STATUS nor the session, buffer and cursor it leaves (R140). -/
theorem decoderFrom_sameSession {s₁ s₂ : State} (hdec : s₁.dec = s₂.dec) (hcfg : s₁.cfg = s₂.cfg)
    (operand : Option (List Byte)) (bo₁ wo₁ bo₂ wo₂ : Endian) :
    SameSession (decoderFrom operand bo₁ wo₁ s₁).state (decoderFrom operand bo₂ wo₂ s₂).state := by
  cases operand with
  | none => simp [SameSession, decoderFrom, expectOperand, hdec]
  | some buf =>
    simp only [decoderFrom, expectOperand, constructDecoder, hcfg]
    split <;> simp [SameSession, hdec]

/-- Settles O56: both constructors are given the same bytes by `coilsToBytes_toCoils`, and they differ in the orders only. -/
theorem coilRoundTripThroughTheDecoder : Obligations.CoilRoundTripThroughTheDecoder := by
  refine ⟨coilsToBytes_toCoils, fun s bo wo ignored => ?_⟩
  have hsession := decoderFrom_sameSession (s₁ := { s with din := .bits (toCoils s.enc.registers) })
    (s₂ := { s with din := .regs s.enc.registers }) rfl rfl (some (regsToBytes s.enc.registers)) bo .big bo wo
  refine ⟨_, _, ?_, rfl, hsession⟩
  rw [← coilsToBytes_toCoils]
  rfl

/-! ### The scalar round trip -/

theorem exec_typedDecode {i : Instr} {w : Width} (h : (i, w) ∈ typedDecodes) (s : State) :
    exec i s = respond (decodeTyped w s) := by
  simp only [typedDecodes, List.mem_cons, List.not_mem_nil, or_false, Prod.mk.injEq] at h
  rcases h with ⟨rfl, rfl⟩ | ⟨rfl, rfl⟩ | ⟨rfl, rfl⟩ | ⟨rfl, rfl⟩ | ⟨rfl, rfl⟩ | ⟨rfl, rfl⟩ | ⟨rfl, rfl⟩ | ⟨rfl, rfl⟩ |
    ⟨rfl, rfl⟩ | ⟨rfl, rfl⟩ | ⟨rfl, rfl⟩ <;> rfl

/-- A typed decode whose bytes are inside the buffer answers the number they stand for (R148, R149). -/
theorem typedDecode_inside {i : Instr} {w : Width} {s : State} (h : (i, w) ∈ typedDecodes) (hready : s.dec.state = .ready)
    (hd : s.din = .none) (hn : s.dec.cur + w.bytes ≤ s.dec.buf.length) :
    exec i s = respond (.ok (s.setCursor (s.dec.cur + w.bytes))
      (scalarPayload w (decodeScalar w s.dec.bo s.dec.wo ((s.dec.buf.drop s.dec.cur).take w.bytes)))) := by
  rw [exec_typedDecode h, decodeTyped, decodeBytes_inside _ hready hd hn]

theorem decoderFrom_fits {s : State} {operand : Option (List Byte)} {buf : List Byte} (hoperand : operand = some buf)
    (hcap : WithinCapacity s.cfg.decCap buf.length) (bo wo : Endian) :
    decoderFrom operand bo wo s = .ok (s.openDecoder bo wo buf) .none := by
  rw [decoderFrom, expectOperand_some hoperand, constructDecoder, if_pos ((fitsCapacity_iff _ _).mpr hcap)]

theorem matchingScalars_mem : ∀ m ∈ matchingScalars, (m.1, m.2.2) ∈ scalarAdds ∧ (m.2.1, m.2.2) ∈ typedDecodes := by
  decide

/-- The Builder's half: one scalar added to an empty accumulator comes out as the registers of its encoding. -/
theorem bToRegs_of_one_scalar {add : Instr} {w : Width} (hadd : (add, w) ∈ scalarAdds) (s : State) (bo wo : Endian)
    (repack : Bool) (p : BitVec w.bits) (hcap : WithinCapacity s.cfg.encCap w.bytes) :
    ∃ s₁ s₂ s₃ : State,
      exec (.bInit bo wo repack) { s with din := .none } = .next s₁
        ∧ exec add { s₁ with din := .scalar w p } = .next s₂
        ∧ exec .bToRegs { s₂ with din := .none } = .next s₃
        ∧ s₃.dout = .regs (toRegs repack bo (build (encodeScalar w bo wo p.toNat))) ∧ s₃.cfg = s.cfg := by
  obtain ⟨s₁, hinit, henc₁, hcfg₁⟩ : ∃ t, exec (.bInit bo wo repack) { s with din := .none } = .next t
      ∧ t.enc = ⟨.ready, bo, wo, repack, []⟩ ∧ t.cfg = s.cfg :=
    ⟨_, bInit_opens rfl (withinCapacity_zero _) bo wo repack, rfl, rfl⟩
  obtain ⟨s₂, happend, henc₂, hcfg₂⟩ : ∃ t, exec add { s₁ with din := .scalar w p } = .next t
      ∧ t.enc = ⟨.ready, bo, wo, repack, [encodeScalar w bo wo p.toNat]⟩ ∧ t.cfg = s₁.cfg := by
    refine ⟨_, (scalarAdd_appendsChunk hadd rfl).fits (by simp [henc₁]) ?_, by simp [henc₁], rfl⟩
    simpa [henc₁, hcfg₁, Encoder.flat, length_encodeScalar] using hcap
  refine ⟨s₁, s₂, _, hinit, happend, congrArg respond (readAccumulator_ready (by simp [henc₂]) rfl _), ?_, hcfg₂.trans hcfg₁⟩
  simp [Encoder.registers, Encoder.pairs, Encoder.flat, henc₂]

/-- The Decoder's half: the first scalar of a register sequence is the number that its first bytes stand for. -/
theorem firstScalar_of_dFromRegs {dec : Instr} {w : Width} (hdec : (dec, w) ∈ typedDecodes) (s : State) (bo wo : Endian)
    {r : List Register} (hlen : w.bytes ≤ (regsToBytes r).length)
    (hcap : WithinCapacity s.cfg.decCap (regsToBytes r).length) :
    ∃ s₁ s₂ : State,
      exec (.dFromRegs bo wo) { s with din := .regs r } = .next s₁
        ∧ exec dec { s₁ with din := .none } = .next s₂ ∧ s₂.status = 0
        ∧ s₂.dout = scalarPayload w (decodeScalar w bo wo ((regsToBytes r).take w.bytes)) := by
  obtain ⟨s₁, hload, hdec₁⟩ : ∃ t, exec (.dFromRegs bo wo) { s with din := .regs r } = .next t
      ∧ t.dec = ⟨.ready, bo, wo, regsToBytes r, 0⟩ :=
    ⟨_, congrArg respond (decoderFrom_fits (s := { s with din := .regs r }) rfl hcap bo wo), rfl⟩
  refine ⟨s₁, _, hload, typedDecode_inside hdec (by simp [hdec₁]) rfl (by simpa [hdec₁] using hlen), rfl, ?_⟩
  simp [hdec₁]

/-- The registers of an encoded scalar hold its bytes rounded up to an even number. -/
theorem length_regsToBytes_toRegs_build (repack : Bool) (bo : Endian) {w : Width} {e : List Byte} (he : e.length = w.bytes) :
    (regsToBytes (toRegs repack bo (build e))).length = max 2 w.bytes := by
  rw [length_regsToBytes, length_toRegs, two_mul_length_build, he]
  cases w <;> rfl

/-- The five commands of R166 complete from `s`, and the decode answers `out`. -/
def RoundTripAnswers (add dec : Instr) (s : State) (bo wo : Endian) (repack : Bool) (operand out : Payload) : Prop :=
  ∃ (s₁ s₂ s₃ s₄ s₅ : State) (r : List Register),
    exec (.bInit bo wo repack) { s with din := .none } = .next s₁
      ∧ exec add { s₁ with din := operand } = .next s₂
      ∧ exec .bToRegs { s₂ with din := .none } = .next s₃ ∧ s₃.dout = .regs r
      ∧ exec (.dFromRegs bo wo) { s₃ with din := .regs r } = .next s₄
      ∧ exec dec { s₄ with din := .none } = .next s₅ ∧ s₅.status = 0 ∧ s₅.dout = out

/-- The number that the first bytes of the registers of one encoded scalar stand for. -/
def roundTripValue (w : Width) (bo wo : Endian) (repack : Bool) (v : Nat) : Nat :=
  decodeScalar w bo wo ((regsToBytes (toRegs repack bo (build (encodeScalar w bo wo v)))).take w.bytes)

theorem roundTripAnswers {add dec : Instr} {w : Width} (hadd : (add, w) ∈ scalarAdds) (hdec : (dec, w) ∈ typedDecodes)
    (s : State) (bo wo : Endian) (repack : Bool) (p : BitVec w.bits) (henc : WithinCapacity s.cfg.encCap w.bytes)
    (hcap : WithinCapacity s.cfg.decCap (max 2 w.bytes)) :
    RoundTripAnswers add dec s bo wo repack (.scalar w p)
      (scalarPayload w (roundTripValue w bo wo repack p.toNat)) := by
  have hlen := length_regsToBytes_toRegs_build repack bo (length_encodeScalar w bo wo p.toNat)
  obtain ⟨s₁, s₂, s₃, hinit, happend, hregs, hout, hcfg⟩ := bToRegs_of_one_scalar hadd s bo wo repack p henc
  obtain ⟨s₄, s₅, hload, hdecode, hok, hvalue⟩ := firstScalar_of_dFromRegs hdec s₃ bo wo
    (hlen ▸ le_max_right 2 w.bytes) (by rwa [hlen, hcfg])
  exact ⟨s₁, s₂, s₃, s₄, s₅, _, hinit, happend, hregs, hout, hload, hdecode, hok, hvalue⟩

theorem take_padEven (e : List Byte) : (padEven e).take e.length = e := by
  unfold padEven
  split
  · exact List.take_left
  · exact List.take_length

/-- Without repack the registers hold the encoding itself, and decoding undoes it. -/
theorem roundTripValue_no_repack (w : Width) (bo wo : Endian) (p : BitVec w.bits) :
    roundTripValue w bo wo false p.toNat = p.toNat := by
  have hbytes : (padEven (encodeScalar w bo wo p.toNat)).take w.bytes = encodeScalar w bo wo p.toNat := by
    rw [← length_encodeScalar w bo wo p.toNat, take_padEven]
  rw [roundTripValue, regsToBytes_toRegs_build, hbytes, decodeScalar_encodeScalar]

/-- With repack and LITTLE the register is read low byte first, so its bytes are not the encoding 02 01 but 01 02. -/
theorem roundTripValue_repack_little (wo : Endian) : roundTripValue .w16 .little wo true 0x0102 = 0x0201 := by
  cases wo <;> decide

/-- Settles O55: `roundTripAnswers`, with the value of the lemma for each flag. -/
theorem scalarRoundTripThroughRegisters : Obligations.ScalarRoundTripThroughRegisters := by
  constructor
  · intro m hm s bo wo p henc hcap
    obtain ⟨hadd, hdec⟩ := matchingScalars_mem m hm
    have htrip := roundTripAnswers hadd hdec s bo wo false p henc hcap
    rwa [roundTripValue_no_repack, scalarPayload, BitVec.ofNat_toNat, BitVec.setWidth_eq] at htrip
  · intro s wo henc hcap
    have htrip : RoundTripAnswers .bAddU16 .dU16 s .little wo true (.scalar .w16 (0x0102 : BitVec 16))
        (scalarPayload .w16 (roundTripValue .w16 .little wo true 0x0102)) :=
      roundTripAnswers (w := .w16) (by decide) (by decide) s .little wo true (0x0102 : BitVec 16) henc hcap
    rwa [roundTripValue_repack_little] at htrip

/-! ### Chunk boundaries -/

/-- The two states differ only in how the same flat accumulator is cut into chunks (R38). -/
def Rechunked (s t : State) : Prop := ∃ ch : List (List Byte), ch.flatten = s.enc.flat ∧ t = s.setChunks ch

theorem rechunked_setChunks (s : State) {ch : List (List Byte)} (h : ch.flatten = s.enc.flat) :
    Rechunked s (s.setChunks ch) := ⟨ch, h, rfl⟩

/-- The two replies are of one kind, with the same result or error, and hold states that differ only in chunk boundaries. -/
inductive Reply.Rechunked : Reply → Reply → Prop where
  | ok {s t : State} (h : Machine.Rechunked s t) (out : Payload) : Reply.Rechunked (.ok s out) (.ok t out)
  | err {s t : State} (h : Machine.Rechunked s t) (e : CommandError) : Reply.Rechunked (.err s e) (.err t e)

theorem Reply.Rechunked.state {r₁ r₂ : Reply} (h : r₁.Rechunked r₂) : Machine.Rechunked r₁.state r₂.state := by
  cases h with
  | ok h out =>
    obtain ⟨ch, hflat, rfl⟩ := h
    exact ⟨ch, hflat, rfl⟩
  | err h e =>
    obtain ⟨ch, hflat, rfl⟩ := h
    exact ⟨ch, hflat, rfl⟩

section Operations

variable {s : State} {ch : List (List Byte)} (hch : ch.flatten = s.enc.flat)

include hch

theorem expectOperand_rechunked {α : Type} (x : Option α) {k₁ k₂ : α → Reply} (hk : ∀ v, (k₁ v).Rechunked (k₂ v)) :
    (expectOperand x s k₁).Rechunked (expectOperand x (s.setChunks ch) k₂) := by
  cases x with
  | none => exact .err (rechunked_setChunks s hch) _
  | some v => exact hk v

theorem builderReady_rechunked {k₁ k₂ : Reply} (hk : k₁.Rechunked k₂) :
    (builderReady s k₁).Rechunked (builderReady (s.setChunks ch) k₂) := by
  have hstate : (s.setChunks ch).enc.state = s.enc.state := rfl
  unfold builderReady
  rw [hstate]
  split
  · exact .err (rechunked_setChunks s hch) _
  · exact hk

theorem decoderReady_rechunked {k₁ k₂ : Reply} (hk : k₁.Rechunked k₂) :
    (decoderReady s k₁).Rechunked (decoderReady (s.setChunks ch) k₂) := by
  unfold decoderReady
  rw [State.setChunks_dec]
  split
  · exact .err (rechunked_setChunks s hch) _
  · exact .err (rechunked_setChunks s hch) _
  · exact expectOperand_rechunked hch _ fun _ => hk

theorem computeStateless_rechunked {α : Type} (x : Option α) (result : α → Payload) :
    (computeStateless x s result).Rechunked (computeStateless x (s.setChunks ch) result) :=
  expectOperand_rechunked hch x fun _ => .ok (rechunked_setChunks s hch) _

theorem constructEncoder_rechunked (bo wo : Endian) (repack : Bool) :
    (constructEncoder bo wo repack s).Rechunked (constructEncoder bo wo repack (s.setChunks ch)) := by
  refine expectOperand_rechunked hch _ fun seed => ?_
  rw [State.setChunks_cfg]
  split
  · exact .ok ⟨seed, rfl, rfl⟩ _
  · exact .err (rechunked_setChunks s hch) _

theorem appendChunk_rechunked (chunk : List Byte) :
    (appendChunk s chunk).Rechunked (appendChunk (s.setChunks ch) chunk) := by
  have hflat : (s.setChunks ch).enc.flat = s.enc.flat := hch
  unfold appendChunk
  rw [State.setChunks_cfg, hflat]
  split
  · refine .ok ⟨ch ++ [chunk], ?_, rfl⟩ _
    rw [List.flatten_append, hch]
    simp [Encoder.flat]
  · exact .err (rechunked_setChunks s hch) _

/-- An add that appends what its operand gives. -/
theorem add_rechunked {α : Type} (x : Option α) (chunk : α → List Byte) :
    (builderReady s <| expectOperand x s fun v => appendChunk s (chunk v)).Rechunked
      (builderReady (s.setChunks ch) <| expectOperand x (s.setChunks ch) fun v => appendChunk (s.setChunks ch) (chunk v)) :=
  builderReady_rechunked hch (expectOperand_rechunked hch x fun _ => appendChunk_rechunked hch _)

/-- A conversion's result is a function of the flat accumulator. -/
theorem readAccumulator_rechunked (result : List Byte → Payload) :
    (readAccumulator s (result s.enc.flat)).Rechunked (readAccumulator (s.setChunks ch) (result ch.flatten)) := by
  rw [hch]
  exact builderReady_rechunked hch (expectOperand_rechunked hch _ fun _ => .ok (rechunked_setChunks s hch) _)

theorem clear_rechunked :
    (builderReady s <| expectOperand s.din.noneOf s fun _ => .ok (s.setChunks []) .none).Rechunked
      (builderReady (s.setChunks ch) <|
        expectOperand s.din.noneOf (s.setChunks ch) fun _ => .ok ((s.setChunks ch).setChunks []) .none) :=
  builderReady_rechunked hch (expectOperand_rechunked hch _ fun _ => .ok ⟨[], rfl, rfl⟩ _)

theorem decoderFrom_rechunked (x : Option (List Byte)) (bo wo : Endian) :
    (decoderFrom x bo wo s).Rechunked (decoderFrom x bo wo (s.setChunks ch)) := by
  refine expectOperand_rechunked (s := s.abortDecoder) hch x fun buf => ?_
  unfold constructDecoder
  rw [State.setChunks_cfg]
  split
  · exact .ok (rechunked_setChunks (s.openDecoder bo wo buf) hch) _
  · exact .err (rechunked_setChunks s.abortDecoder hch) _

theorem decodeBytes_rechunked (n : Nat) (result : List Byte → Payload) :
    (decodeBytes n s result).Rechunked (decodeBytes n (s.setChunks ch) result) := by
  refine decoderReady_rechunked hch ?_
  unfold takeBytes
  rw [State.setChunks_dec]
  split
  · exact .ok (rechunked_setChunks (s.setCursor (s.dec.cur + n)) hch) _
  · exact .err (rechunked_setChunks s.abortDecoder hch) _

theorem rewind_rechunked :
    (decoderReady s (.ok (s.setCursor 0) .none)).Rechunked
      (decoderReady (s.setChunks ch) (.ok ((s.setChunks ch).setCursor 0) .none)) :=
  decoderReady_rechunked hch (.ok (rechunked_setChunks (s.setCursor 0) hch) _)

end Operations

/-- The command answers the two states with replies that differ only in chunk boundaries. -/
def AnswersRechunked (i : Instr) (s t : State) : Prop :=
  ∃ r₁ r₂ : Reply, exec i s = respond r₁ ∧ exec i t = respond r₂ ∧ r₁.Rechunked r₂

/-- Every command is one of the shared operations, none of which sees a chunk boundary. -/
theorem answersRechunked (i : Instr) {s : State} {ch : List (List Byte)} (hch : ch.flatten = s.enc.flat) :
    AnswersRechunked i s (s.setChunks ch) := by
  cases i with
  | xfwd8 | xfwd16 | xfwd32 | xfwd64 | xinv8 | xinv16 | xinv32 | xinv64 | pack | unpack =>
    exact ⟨_, _, rfl, rfl, computeStateless_rechunked hch _ _⟩
  | bInit bo wo repack => exact ⟨_, _, rfl, rfl, constructEncoder_rechunked hch bo wo repack⟩
  | bAddU8 | bAddI8 | bAddU16 | bAddI16 | bAddF16 | bAddU32 | bAddI32 | bAddF32 | bAddU64 | bAddI64 | bAddF64 | bAddBits =>
    exact ⟨_, _, rfl, rfl, add_rechunked hch _ _⟩
  | bAddStr => exact ⟨_, _, rfl, rfl, add_rechunked hch _ id⟩
  | bEncode => exact ⟨_, _, rfl, rfl, readAccumulator_rechunked hch .bytes⟩
  | bBuild => exact ⟨_, _, rfl, rfl, readAccumulator_rechunked hch fun e => .pairs (build e)⟩
  | bToRegs =>
    exact ⟨_, _, rfl, rfl, readAccumulator_rechunked hch fun e => .regs (toRegs s.enc.repack s.enc.bo (build e))⟩
  | bToCoils =>
    exact ⟨_, _, rfl, rfl,
      readAccumulator_rechunked hch fun e => .bits (toCoils (toRegs s.enc.repack s.enc.bo (build e)))⟩
  | bReset => exact ⟨_, _, rfl, rfl, clear_rechunked hch⟩
  | dInitRaw | dFromRegs | dFromCoils => exact ⟨_, _, rfl, rfl, decoderFrom_rechunked hch _ _ _⟩
  | dU8 | dI8 | dU16 | dI16 | dF16 | dU32 | dI32 | dF32 | dU64 | dI64 | dF64 | dBits | dStr | dSkip =>
    exact ⟨_, _, rfl, rfl, decodeBytes_rechunked hch _ _⟩
  | dReset => exact ⟨_, _, rfl, rfl, rewind_rechunked hch⟩

/-- Settles O58: the hypotheses say that `s₂` is `s₁` with other chunks of the same bytes, and `answersRechunked` gives replies
whose states are again so. -/
theorem chunkBoundariesAreNeverObserved : Obligations.ChunkBoundariesAreNeverObserved := by
  intro i s₁ s₂ t₁ t₂ hflat hs h₁ h₂
  obtain ⟨r₁, r₂, hr₁, hr₂, hr⟩ := answersRechunked i (ch := s₂.enc.chunks) hflat.symm
  obtain rfl := respond_eq_next.mp (hr₁.symm.trans h₁)
  rw [hs] at h₂
  obtain rfl := respond_eq_next.mp (hr₂.symm.trans h₂)
  obtain ⟨ch, hch, ht⟩ := hr.state
  rw [ht]
  exact ⟨hch.symm, rfl⟩

end Sys2Proof.Machine
end

section
/-! The statements of the spec's 43_bit_packing.md: the bits of PACK and UNPACK one by one, their round trips, and the two
commands (R130 to R137). -/

namespace Sys2Proof.Machine

/-! ### Packing -/

/-- Piece `j` is the `k` elements from index `k * j` on, or those that are left. -/
theorem getElem?_chunksOf {α : Type} {k : Nat} (hk : 0 < k) (s : List α) {j : Nat} (hj : k * j < s.length) :
    (chunksOf k s)[j]? = some ((s.drop (k * j)).take k) := by
  induction s using chunksOf_induction hk generalizing j with
  | nil => exact absurd hj (Nat.not_lt_zero _)
  | short s hs hlt =>
    obtain rfl : j = 0 := Nat.eq_zero_of_not_pos fun h => absurd (Nat.le_mul_of_pos_right k h) (by omega)
    rw [chunksOf_short hs hlt.le, Nat.mul_zero, List.drop_zero, List.take_of_length_le hlt.le]
    rfl
  | piece g s hg ih =>
    rw [chunksOf_append hk g s hg]
    cases j with
    | zero => rw [Nat.mul_zero, List.drop_zero, List.take_left' hg]; rfl
    | succ j =>
      rw [List.length_append, hg, Nat.mul_succ, Nat.add_comm, Nat.add_lt_add_iff_left] at hj
      rw [List.getElem?_cons_succ, Nat.mul_succ, Nat.add_comm, ← List.drop_drop, List.drop_left' hg]
      exact ih hj

theorem getElem?_pack (b : List Bool) {j : Nat} (hj : j < (b.length + 7) / 8) :
    (pack b)[j]? = some (packByte ((b.drop (8 * j)).take 8)) := by
  rw [pack, List.getElem?_map, getElem?_chunksOf (by decide) b (by omega)]
  rfl

/-- Bit `i` of byte `j` is boolean `8j + i`, or 0 past the end (R130, R131). -/
theorem getLsbD_packByte_drop_take (b : List Bool) (j : Nat) {i : Nat} (hi : i < 8) :
    (packByte ((b.drop (8 * j)).take 8)).getLsbD i = (b[8 * j + i]?).getD false := by
  rw [getLsbD_packByte _ hi, List.getElem?_take_of_lt hi, List.getElem?_drop]

/-- Settles O48: byte `j` packs the booleans from `8j` on (`getElem?_pack`), boolean `8j + i` in its bit `i`. -/
theorem packPutsBooleansLsbFirstWithZeroPadding : Obligations.PackPutsBooleansLsbFirstWithZeroPadding := fun b =>
  ⟨length_pack b, fun j _ hj hi => ⟨_, getElem?_pack b hj, getLsbD_packByte_drop_take b j hi⟩⟩

/-! ### The round trips -/

/-- The bits of a packed byte are the booleans packed, then `false` (R131). -/
theorem bitsLsbFirst_packByte {g : List Bool} (hg : g.length ≤ 8) :
    bitsLsbFirst (packByte g) = g ++ List.replicate (8 - g.length) false := by
  refine List.ext_getElem (by simp [length_bitsLsbFirst, hg]) fun i hi _ => ?_
  rw [length_bitsLsbFirst] at hi
  simp only [bitsLsbFirst, List.getElem_map, List.getElem_range, getLsbD_packByte g hi, List.getElem_append,
    List.getElem_replicate]
  split
  next hlt => rw [List.getElem?_eq_getElem hlt, Option.getD_some]
  next hge => rw [List.getElem?_eq_none (Nat.le_of_not_lt hge), Option.getD_none]

/-- Unpacking what was packed gives the booleans back, padded with `false` to whole bytes (R137). -/
theorem unpack_pack (b : List Bool) : unpack (pack b) = b ++ List.replicate ((8 - b.length % 8) % 8) false := by
  induction b using chunksOf_induction (k := 8) (by decide) with
  | nil => rfl
  | short g hg hlt =>
    have hpos : 0 < g.length := List.length_pos_of_ne_nil hg
    rw [pack_short hg hlt.le, unpack_cons, unpack_nil, List.append_nil, bitsLsbFirst_packByte hlt.le,
      show (8 - g.length % 8) % 8 = 8 - g.length by omega]
  | piece g b hg ih =>
    rw [pack_append g b hg, unpack_cons, ih, bitsLsbFirst_packByte hg.le, hg, Nat.sub_self, List.replicate_zero,
      List.append_nil, List.length_append, hg, Nat.add_mod_left, List.append_assoc]

/-- Packing what was unpacked gives the bytes back (R137). -/
theorem pack_unpack (d : List Byte) : pack (unpack d) = d := by
  induction d with
  | nil => rfl
  | cons x d ih => rw [unpack_cons, pack_append _ _ (length_bitsLsbFirst x), packByte_bitsLsbFirst, ih]

/-- Settles O50: `unpack_pack` says where the booleans and the padding stand, and `pack_unpack` is the other direction. -/
theorem packAndUnpackRoundTrip : Obligations.PackAndUnpackRoundTrip := by
  refine ⟨fun b => ?_, pack_unpack⟩
  rw [unpack_pack, List.take_left, List.drop_left, List.length_append, List.length_replicate]
  exact ⟨rfl, rfl, fun _ hx => List.eq_of_mem_replicate hx⟩

/-! ### Unpacking -/

/-- Boolean `8j + i` is bit `i` of byte `j` (R132): packing puts it there, and gives the byte back. -/
theorem getElem?_unpack {d : List Byte} {j i : Nat} {x : Byte} (hj : d[j]? = some x) (hi : i < 8) :
    (unpack d)[8 * j + i]? = some (x.getLsbD i) := by
  obtain ⟨hjlt, -⟩ := List.getElem?_eq_some_iff.mp hj
  have hlen : (unpack d).length = 8 * d.length := length_unpack d
  have hbyte : packByte (((unpack d).drop (8 * j)).take 8) = x := by
    have hpack := getElem?_pack (unpack d) (j := j) (by omega)
    rw [pack_unpack, hj] at hpack
    exact (Option.some.inj hpack).symm
  rw [← hbyte, getLsbD_packByte_drop_take _ _ hi, List.getElem?_eq_getElem (by omega)]
  rfl

/-- Settles O49: `length_unpack` and `getElem?_unpack`. -/
theorem unpackListsEightBitsOfEveryByte : Obligations.UnpackListsEightBitsOfEveryByte := fun d =>
  ⟨length_unpack d, fun _ _ _ hj hi => getElem?_unpack hj hi⟩

/-! ### The commands -/

/-- A stateless command on an operand of its kind answers the result and changes nothing else (R44). -/
theorem respond_computeStateless_some {α : Type} {operand : Option α} {x : α} (hx : operand = some x) (s : State)
    (result : α → Payload) :
    respond (computeStateless operand s result) = .next { s with status := 0, dout := result x } := by
  rw [computeStateless, expectOperand_some hx]
  rfl

/-- Settles O29: PACK accepts every boolean sequence and UNPACK every byte sequence. -/
theorem packAndUnpackAnswerTheCodec : Obligations.PackAndUnpackAnswerTheCodec :=
  ⟨fun s _ hd => respond_computeStateless_some (congrArg Payload.bitsOf hd) s _,
    fun s _ hd => respond_computeStateless_some (congrArg Payload.bytesOf hd) s _⟩

end Sys2Proof.Machine
end

section
/-! The statements of the spec's 44_decoder.md: what the constructors, the reads at the cursor and D_RESET do, how two reads join,
what a typed decode depends on, and the bytes of the coils (R140 to R168). -/

namespace Sys2Proof.Machine

/-! ### What the commands of the decoder channel do -/

/-- Settles O35: each constructor is `decoderFrom` with its own bytes, whose number the length lemmas give. -/
theorem decoderConstructorsOpenASession : Obligations.DecoderConstructorsOpenASession := by
  intro s bo wo
  refine ⟨?raw, ?regs, ?coils⟩
  case raw =>
    intro buf hd hcap
    exact congrArg respond (decoderFrom_fits (by rw [hd]; rfl) hcap bo wo)
  case regs =>
    intro r hd hcap
    exact congrArg respond
      (decoderFrom_fits (buf := regsToBytes r) (by rw [hd]; rfl) (by rwa [length_regsToBytes]) bo wo)
  case coils =>
    intro c ignored hd hcap
    exact congrArg respond
      (decoderFrom_fits (buf := coilsToBytes c) (by rw [hd]; rfl) (by rwa [length_coilsToBytes]) bo .big)

/-- Settles O36: `typedDecode_inside`, whose number is the value of the inverse transform, the same function as the
transform (R99). -/
theorem typedDecodesAnswerTheValueAtTheCursor : Obligations.TypedDecodesAnswerTheValueAtTheCursor := by
  intro c hc s hready hd hn
  rw [typedDecode_inside hc hready hd hn, decodeScalar_eq_beValue_xform _ _ _ (length_slice hn)]
  rfl

/-- Settles O37: each command is `decodeBytes` of COUNT bytes with its own result. -/
theorem countedReadsTakeCountBytes : Obligations.CountedReadsTakeCountBytes := by
  intro s count hready hd hn
  have hread (result : List Byte → Payload) := congrArg respond (decodeBytes_inside result hready hd hn)
  exact ⟨hread _, hread _, hread _⟩

/-- Settles O38: both checks pass, and the write is `setCursor 0`. -/
theorem dResetRewindsTheCursor : Obligations.DResetRewindsTheCursor :=
  fun _ hready hd => congrArg respond (decoderReady_ready hready hd _)

/-! ### Two reads in a row -/

/-- The bytes of two adjacent slices are those of the slice over both. -/
theorem slice_append_slice (buf : List Byte) (addr a b : Nat) :
    (buf.drop addr).take a ++ (buf.drop (addr + a)).take b = (buf.drop addr).take (a + b) := by
  rw [List.take_add, List.drop_drop]

/-- Settles O39: `countedReadsTakeCountBytes` says what each read does, and the second begins where the first left the cursor. -/
theorem successiveReadsJoin : Obligations.SuccessiveReadsJoin := by
  intro s a b hready hd hn
  obtain ⟨-, hstrA, hskipA⟩ := countedReadsTakeCountBytes s a hready hd (by omega)
  obtain ⟨-, hstrAB, hskipAB⟩ := countedReadsTakeCountBytes s (a + b) hready hd hn
  have hsecond (out : Payload) := countedReadsTakeCountBytes
    { s with dec := { s.dec with cur := s.dec.cur + a }, status := 0, dout := out } b hready hd
    (by rwa [Nat.add_assoc])
  obtain ⟨-, hstrB, -⟩ := hsecond (.bytes ((s.dec.buf.drop s.dec.cur).take a))
  obtain ⟨-, -, hskipB⟩ := hsecond .none
  rw [← slice_append_slice] at hstrAB
  refine ⟨_, _, _, _, _, hstrA, hstrB, hstrAB, rfl, rfl, rfl, ?_, _, hskipA, ?_⟩
  · simp only [Nat.add_assoc]
  · simp only [hskipB, hskipAB, Nat.add_assoc]

/-! ### What a typed decode depends on -/

/-- A read is inside the buffer exactly when the slice at its address has its length. -/
theorem memRead_eq_ite_slice (buf : List Byte) (addr : Nat) {n : Nat} (hn : 0 < n) :
    memRead buf addr n =
      if ((buf.drop addr).take n).length = n then some ((buf.drop addr).take n) else none := by
  have hinside : addr + n ≤ buf.length ↔ ((buf.drop addr).take n).length = n := by
    rw [List.length_take, List.length_drop]
    omega
  rw [memRead, if_congr hinside rfl rfl]

/-- Two reads of one length at equal slices give the same, outside the buffer too. -/
theorem memRead_congr_slice {buf₁ buf₂ : List Byte} {addr₁ addr₂ n : Nat} (hn : 0 < n)
    (h : (buf₁.drop addr₁).take n = (buf₂.drop addr₂).take n) : memRead buf₁ addr₁ n = memRead buf₂ addr₂ n := by
  rw [memRead_eq_ite_slice _ _ hn, memRead_eq_ite_slice _ _ hn, h]

/-- The two replies show the host the same STATUS and DOUT. -/
def Reply.SameResponse (r₁ r₂ : Reply) : Prop := r₁.state.status = r₂.state.status ∧ r₁.state.dout = r₂.state.dout

/-- What is answered at the cursor comes from the read alone. -/
theorem takeBytes_sameResponse {n : Nat} {s₁ s₂ : State} (result : List Byte → Payload)
    (h : memRead s₁.dec.buf s₁.dec.cur n = memRead s₂.dec.buf s₂.dec.cur n) :
    (takeBytes n s₁ fun s bytes => .ok s (result bytes)).SameResponse
      (takeBytes n s₂ fun s bytes => .ok s (result bytes)) := by
  unfold takeBytes
  rw [h]
  split
  · exact ⟨rfl, rfl⟩
  · exact ⟨rfl, rfl⟩

theorem bytes_pos (w : Width) : 0 < w.bytes := by cases w <;> decide

/-- Settles O57: both commands are `decodeTyped` at one width, both reads give the same, and so do the orders. -/
theorem typedDecodeDependsOnlyOnItsSliceAndOrders : Obligations.TypedDecodeDependsOnlyOnItsSliceAndOrders := by
  rintro ⟨i₁, w⟩ hi₁ ⟨i₂, _⟩ hi₂ rfl s₁ s₂ t₁ t₂ hready₁ hready₂ hd₁ hd₂ hbo hwo hslice h₁ h₂
  obtain rfl := respond_eq_next.mp ((exec_typedDecode hi₁ s₁).symm.trans h₁)
  obtain rfl := respond_eq_next.mp ((exec_typedDecode hi₂ s₂).symm.trans h₂)
  rw [decodeTyped, decodeTyped, hbo, hwo, decodeBytes, decodeBytes, decoderReady_ready hready₁ hd₁,
    decoderReady_ready hready₂ hd₂]
  exact takeBytes_sameResponse _ (memRead_congr_slice (bytes_pos w) hslice)

/-! ### The bytes of the coils -/

/-- Every group of coils is one byte. -/
theorem packReversedGroups_eq_map (coils : List Bool) :
    ((chunksOf 8 coils).flatMap fun g => pack g.reverse) = (chunksOf 8 coils).map fun g => packByte g.reverse := by
  have hbyte {g : List Bool} (hne : g ≠ []) (hlen : g.length ≤ 8) : pack g.reverse = [packByte g.reverse] :=
    pack_short (mt List.reverse_eq_nil_iff.mp hne) (by rwa [List.length_reverse])
  induction coils using chunksOf_induction (k := 8) (by decide) with
  | nil => rfl
  | short g hne hlt => rw [chunksOf_short hne hlt.le, List.flatMap_singleton, List.map_singleton, hbyte hne hlt.le]
  | piece g coils hg ih =>
    rw [chunksOf_append (by decide) g coils hg, List.flatMap_cons, List.map_cons, ih,
      hbyte (List.ne_nil_of_length_pos (by omega)) hg.le]
    rfl

theorem getElem?_coilsToBytes (coils : List Bool) {j : Nat} (hj : 8 * j < (padCoils coils).length) :
    (coilsToBytes coils)[j]? = some (packByte (((padCoils coils).drop (8 * j)).take 8).reverse) := by
  rw [coilsToBytes, packReversedGroups_eq_map, List.getElem?_map, getElem?_chunksOf (by decide) _ hj]
  rfl

/-- A whole group of 8 is packed with its first boolean in bit 7. -/
theorem getLsbD_packByte_reverse {g : List Bool} (hg : g.length = 8) {k : Nat} (hk : k < 8) :
    (packByte g.reverse).getLsbD (7 - k) = (g[k]?).getD false := by
  rw [getLsbD_packByte _ (by omega), List.getElem?_reverse (by omega), hg, show 8 - 1 - (7 - k) = k by omega]

/-- The padding coils are `false` and the coils follow them. -/
theorem getD_padCoils (coils : List Bool) (i : Nat) :
    ((padCoils coils)[i]?).getD false =
      if i < (8 - coils.length % 8) % 8 then false else (coils[i - (8 - coils.length % 8) % 8]?).getD false := by
  rw [padCoils]
  split
  next hpad => rw [List.getElem?_append_left (by rwa [List.length_replicate]), List.getElem?_replicate_of_lt hpad]; rfl
  next hcoil => rw [List.getElem?_append_right (by rw [List.length_replicate]; omega), List.length_replicate]

/-- Settles O53: byte `j` packs the padded coils from `8j` on, and `getD_padCoils` says where each comes from. -/
theorem coilsBecomeBytesMsbFirstWithLeadingPadding : Obligations.CoilsBecomeBytesMsbFirstWithLeadingPadding := by
  refine fun coils => ⟨length_coilsToBytes coils, fun j k hj hk => ?_⟩
  have hgroup : 8 * j + 8 ≤ (padCoils coils).length := by rw [length_padCoils]; omega
  have hlen : (((padCoils coils).drop (8 * j)).take 8).length = 8 := by rw [List.length_take, List.length_drop]; omega
  refine ⟨_, getElem?_coilsToBytes coils (by omega), ?_⟩
  rw [getLsbD_packByte_reverse hlen hk, List.getElem?_take_of_lt hk, List.getElem?_drop, getD_padCoils]

end Sys2Proof.Machine
end

section
/-! The statements of the spec's 60_exceptions.md: each error with the states it is raised in and what it changes, the order in
which errors are reported, and blocks that share nothing (R180 to R199). -/

namespace Sys2Proof.Machine

/-! ### Illegal words -/

theorem perform_illegal {w : CommandWord} {e : IllegalWord} (h : decodeCmd w = .error e) (s : State) :
    perform w s = respond (.err s .illegalCommand) := by
  rw [perform, h]

/-- Settles O7: the step performs the word on the accepted state, where `perform_illegal` answers. -/
theorem illegalWordRaisesIllegalCommand : Obligations.IllegalWordRaisesIllegalCommand := by
  intro s t rest e hp hdecode
  rw [step, State.nextCommand_cons hp]
  exact perform_illegal hdecode _

/-! ### The channel checks -/

/-- The command needs a channel that is in state NONE (R184). -/
abbrev Unconstructed (k : CommandKind) (s : State) : Prop :=
  (k.needsEncoder = true ∧ s.enc.state = .none) ∨ (k.needsDecoder = true ∧ s.dec.state = .none)

/-- The command needs the decoder channel, which is in state ABORTED (R185). -/
abbrev SessionLost (k : CommandKind) (s : State) : Prop := k.needsDecoder = true ∧ s.dec.state = .aborted

/-- The channel that the command needs, if any, is in state READY (R100, R146). -/
structure ChannelReady (k : CommandKind) (s : State) : Prop where
  enc : k.needsEncoder = true → s.enc.state = .ready
  dec : k.needsDecoder = true → s.dec.state = .ready

theorem ChannelReady.not_unconstructed {k : CommandKind} {s : State} (h : ChannelReady k s) : ¬Unconstructed k s := by
  rintro (⟨hk, hs⟩ | ⟨hk, hs⟩)
  · exact nomatch hs.symm.trans (h.enc hk)
  · exact nomatch hs.symm.trans (h.dec hk)

theorem ChannelReady.not_sessionLost {k : CommandKind} {s : State} (h : ChannelReady k s) : ¬SessionLost k s :=
  fun ⟨hk, hs⟩ => nomatch hs.symm.trans (h.dec hk)

theorem needsEncoder_eq_false_of_needsDecoder {k : CommandKind} (h : k.needsDecoder = true) : k.needsEncoder = false := by
  cases k with
  | decoderTake | decoderRewind => rfl
  | _ => exact nomatch h

theorem SessionLost.not_unconstructed {k : CommandKind} {s : State} (h : SessionLost k s) : ¬Unconstructed k s := by
  obtain ⟨hk, hs⟩ := h
  rintro (⟨hencoder, -⟩ | ⟨-, hnone⟩)
  · exact nomatch hencoder.symm.trans (needsEncoder_eq_false_of_needsDecoder hk)
  · exact nomatch hs.symm.trans hnone

/-- The channel is checked first: on a channel that is not ready the reply is the error of R184 or R185. -/
theorem Effect.channel_cases {s : State} {k : CommandKind} {r : Reply} (h : Effect s k r) :
    ChannelReady k s ∨ (Unconstructed k s ∧ r = .err s .notConstructed) ∨
      (SessionLost k s ∧ r = .err s .sessionAborted) := by
  cases h with
  | noEncoder _ hk hs => exact .inr (.inl ⟨.inl ⟨hk, hs⟩, rfl⟩)
  | noDecoder _ hk hs => exact .inr (.inl ⟨.inr ⟨hk, hs⟩, rfl⟩)
  | aborted _ hk hs => exact .inr (.inr ⟨⟨hk, hs⟩, rfl⟩)
  | rejected _ _ henc hdec => exact .inl ⟨henc, hdec⟩
  | converted hs | appended hs | chunkTooLong hs | cleared hs => exact .inl ⟨fun _ => hs, nofun⟩
  | taken _ hs | truncated _ hs | rewound hs => exact .inl ⟨nofun, fun _ => hs⟩
  | computed | opened | seedTooLong | loaded | bufferTooLong | loadRejected => exact .inl ⟨nofun, nofun⟩

theorem exec_unconstructed {i : Instr} {s : State} (h : Unconstructed i.kind s) :
    exec i s = respond (.err s .notConstructed) := by
  obtain ⟨r, hexec, heffect⟩ := exec_effect i s
  rcases heffect.channel_cases with hready | ⟨-, rfl⟩ | ⟨hlost, -⟩
  · exact absurd h hready.not_unconstructed
  · exact hexec
  · exact absurd h hlost.not_unconstructed

theorem exec_sessionLost {i : Instr} {s : State} (h : SessionLost i.kind s) :
    exec i s = respond (.err s .sessionAborted) := by
  obtain ⟨r, hexec, heffect⟩ := exec_effect i s
  rcases heffect.channel_cases with hready | ⟨hnone, -⟩ | ⟨-, rfl⟩
  · exact absurd h hready.not_sessionLost
  · exact absurd hnone h.not_unconstructed
  · exact hexec

/-- Settles O19: the response of `exec_unconstructed`. -/
theorem unconstructedChannelAnswersNotConstructed : Obligations.UnconstructedChannelAnswersNotConstructed :=
  fun _ _ h => exec_unconstructed h

theorem State.abortDecoder_of_aborted {s : State} (h : s.dec.state = .aborted) : s.abortDecoder = s := by
  rw [State.abortDecoder, ← h]

/-- Only a construction that succeeds changes an aborted decoder channel (R185). -/
theorem Effect.loaded_of_aborted {s : State} {k : CommandKind} {r : Reply} (h : Effect s k r)
    (haborted : s.dec.state = .aborted) (hdec : r.state.dec ≠ s.dec) :
    k = .decoderConstruct ∧ r.state.status = 0 ∧ r.state.dec.state = .ready := by
  cases h with
  | loaded => exact ⟨rfl, rfl, rfl⟩
  | bufferTooLong | loadRejected =>
    exact absurd (congrArg State.dec (State.abortDecoder_of_aborted haborted)) hdec
  | taken _ hs | truncated _ hs | rewound hs => exact nomatch haborted.symm.trans hs
  | _ => exact absurd rfl hdec

/-- Settles O18: the response of `exec_sessionLost`, and `Effect.loaded_of_aborted`. -/
theorem abortedSessionAnswersSessionAborted : Obligations.AbortedSessionAnswersSessionAborted := by
  refine ⟨fun i s hk hs => exec_sessionLost ⟨hk, hs⟩, fun i s t h haborted hdec => ?_⟩
  obtain ⟨r, rfl, heffect⟩ := exec_next h
  exact heffect.loaded_of_aborted haborted hdec

/-! ### The operand check -/

theorem CommandError.code_eq_one {e : CommandError} : e.code = 1 ↔ e = .invalidInput := by cases e <;> decide

theorem Reply.status_ok_ne_one (s : State) (out : Payload) : (Reply.ok s out).state.status ≠ 1 :=
  (by decide : okCode ≠ 1)

theorem Reply.status_err_ne_one (s : State) {e : CommandError} (h : e ≠ .invalidInput) : (Reply.err s e).state.status ≠ 1 :=
  mt CommandError.code_eq_one.mp h

/-- The reply is InvalidInput exactly when DIN lacks the form (R78, R181). -/
def Reply.ChecksForm (r : Reply) (din : Payload) (form : PayloadForm) : Prop :=
  r.state.status = 1 ↔ din.hasForm form = false

theorem expectOperand_checksForm {α : Type} {x : Option α} {din : Payload} {form : PayloadForm} {u : State} {k : α → Reply}
    (hx : x = none ↔ din.hasForm form = false) (hk : ∀ v, (k v).state.status ≠ 1) :
    (expectOperand x u k).ChecksForm din form := by
  unfold Reply.ChecksForm
  rw [← hx]
  rcases expectOperand_cases x u k with ⟨hnone, hr⟩ | ⟨v, hsome, hr⟩ <;> rw [hr]
  · exact iff_of_true rfl hnone
  · exact iff_of_false (hk v) (by rw [hsome]; exact nofun)

theorem computeStateless_checksForm {α : Type} {x : Option α} {s : State} {form : PayloadForm} (result : α → Payload)
    (hx : x = none ↔ s.din.hasForm form = false) : (computeStateless x s result).ChecksForm s.din form :=
  expectOperand_checksForm hx fun _ => Reply.status_ok_ne_one _ _

theorem constructEncoder_checksForm (bo wo : Endian) (repack : Bool) (s : State) :
    (constructEncoder bo wo repack s).ChecksForm s.din .nothingOrBytes := by
  refine expectOperand_checksForm Payload.seedChunks_eq_none fun ch => ?_
  split
  · exact Reply.status_ok_ne_one _ _
  · exact Reply.status_err_ne_one _ nofun

theorem appendChunk_status_ne_one (s : State) (chunk : List Byte) : (appendChunk s chunk).state.status ≠ 1 := by
  rcases appendChunk_cases s chunk with ⟨-, hr⟩ | ⟨-, hr⟩ <;> rw [hr]
  · exact Reply.status_ok_ne_one _ _
  · exact Reply.status_err_ne_one _ nofun

/-- A command of a ready encoder channel comes to its operand check. -/
theorem builderReady_checksForm {α : Type} {x : Option α} {s : State} {form : PayloadForm} {k : α → Reply}
    (hready : s.enc.state = .ready) (hx : x = none ↔ s.din.hasForm form = false) (hk : ∀ v, (k v).state.status ≠ 1) :
    (builderReady s (expectOperand x s k)).ChecksForm s.din form := by
  rw [builderReady_ready hready]
  exact expectOperand_checksForm hx hk

theorem constructDecoder_status_ne_one (bo wo : Endian) (s : State) (buf : List Byte) :
    (constructDecoder bo wo s buf).state.status ≠ 1 := by
  rcases constructDecoder_cases bo wo s buf with ⟨-, hr⟩ | ⟨-, hr⟩ <;> rw [hr]
  · exact Reply.status_ok_ne_one _ _
  · exact Reply.status_err_ne_one _ nofun

theorem decoderFrom_checksForm {x : Option (List Byte)} {s : State} {form : PayloadForm} (bo wo : Endian)
    (hx : x = none ↔ s.din.hasForm form = false) : (decoderFrom x bo wo s).ChecksForm s.din form :=
  expectOperand_checksForm hx (constructDecoder_status_ne_one bo wo s)

theorem decoderReady_checksForm {s : State} {k : Reply} (hready : s.dec.state = .ready) (hk : k.state.status ≠ 1) :
    (decoderReady s k).ChecksForm s.din .nothing := by
  unfold decoderReady
  rw [hready]
  exact expectOperand_checksForm Payload.noneOf_eq_none fun _ => hk

theorem decodeBytes_checksForm {s : State} (hready : s.dec.state = .ready) (n : Nat) (result : List Byte → Payload) :
    (decodeBytes n s result).ChecksForm s.din .nothing := by
  refine decoderReady_checksForm hready ?_
  rcases takeBytes_cases n s (fun s' bytes => .ok s' (result bytes)) with ⟨-, hr⟩ | ⟨-, hr⟩ <;> rw [hr]
  · exact Reply.status_err_ne_one _ nofun
  · exact Reply.status_ok_ne_one _ _

/-- The command's reply is InvalidInput exactly when DIN lacks the form of the table of R78. -/
def ChecksOperand (i : Instr) (s : State) : Prop :=
  ∃ r : Reply, exec i s = respond r ∧ r.ChecksForm s.din i.operandForm

/-- Every command on a ready channel checks its operand by the table of R78. -/
theorem checksOperand {i : Instr} {s : State} (h : ChannelReady i.kind s) : ChecksOperand i s := by
  cases i with
  | xfwd8 | xfwd16 | xfwd32 | xfwd64 | xinv8 | xinv16 | xinv32 | xinv64 =>
    exact ⟨_, rfl, computeStateless_checksForm _ Payload.bytesOfLength_eq_none⟩
  | pack => exact ⟨_, rfl, computeStateless_checksForm _ Payload.bitsOf_eq_none⟩
  | unpack => exact ⟨_, rfl, computeStateless_checksForm _ Payload.bytesOf_eq_none⟩
  | bInit bo wo repack => exact ⟨_, rfl, constructEncoder_checksForm bo wo repack s⟩
  | bAddU8 | bAddI8 | bAddU16 | bAddI16 | bAddF16 | bAddU32 | bAddI32 | bAddF32 | bAddU64 | bAddI64 | bAddF64 =>
    exact ⟨_, rfl, builderReady_checksForm (h.enc rfl) Payload.scalarOf_eq_none fun _ => appendChunk_status_ne_one s _⟩
  | bAddStr =>
    exact ⟨_, rfl, builderReady_checksForm (h.enc rfl) Payload.bytesOf_eq_none fun _ => appendChunk_status_ne_one s _⟩
  | bAddBits =>
    exact ⟨_, rfl, builderReady_checksForm (h.enc rfl) Payload.bitsOf_eq_none fun _ => appendChunk_status_ne_one s _⟩
  | bEncode | bBuild | bToRegs | bToCoils | bReset =>
    exact ⟨_, rfl, builderReady_checksForm (h.enc rfl) Payload.noneOf_eq_none fun _ => Reply.status_ok_ne_one _ _⟩
  | dInitRaw => exact ⟨_, rfl, decoderFrom_checksForm _ _ Payload.bytesOf_eq_none⟩
  | dFromRegs => exact ⟨_, rfl, decoderFrom_checksForm _ _ Payload.map_regsOf_eq_none⟩
  | dFromCoils => exact ⟨_, rfl, decoderFrom_checksForm _ _ Payload.map_bitsOf_eq_none⟩
  | dU8 | dI8 | dU16 | dI16 | dF16 | dU32 | dI32 | dF32 | dU64 | dI64 | dF64 | dBits | dStr | dSkip =>
    exact ⟨_, rfl, decodeBytes_checksForm (h.dec rfl) _ _⟩
  | dReset => exact ⟨_, rfl, decoderReady_checksForm (h.dec rfl) (Reply.status_ok_ne_one _ _)⟩

theorem exec_status_eq_one_iff {i : Instr} {s t : State} (hready : ChannelReady i.kind s) (h : exec i s = .next t) :
    t.status = 1 ↔ s.din.hasForm i.operandForm = false := by
  obtain ⟨r, hexec, hcheck⟩ := checksOperand hready
  obtain rfl := respond_eq_next.mp (hexec.symm.trans h)
  exact hcheck

/-- What InvalidInput leaves behind: a decoder constructor aborts its channel, and nothing else changes (R181). -/
theorem Effect.reply_of_status_one {s : State} {k : CommandKind} {r : Reply} (h : Effect s k r) (hone : r.state.status = 1) :
    r = .err (if k = .decoderConstruct then s.abortDecoder else s) .invalidInput := by
  cases r with
  | ok u out => exact absurd hone (Reply.status_ok_ne_one u out)
  | err u e =>
    obtain rfl := CommandError.code_eq_one.mp hone
    cases h with
    | loadRejected => rfl
    | rejected _ hk => rw [if_neg hk]

/-- Settles O23: STATUS is 1 by `exec_status_eq_one_iff`, and `Effect.reply_of_status_one` gives the whole reply. -/
theorem rejectedOperandRaisesInvalidInput : Obligations.RejectedOperandRaisesInvalidInput := by
  intro i s hform henc hdec
  obtain ⟨r, hexec, heffect⟩ := exec_effect i s
  have hone : r.state.status = 1 := (exec_status_eq_one_iff ⟨henc, hdec⟩ hexec).mpr hform
  rw [hexec, heffect.reply_of_status_one hone]
  split <;> rfl

/-! ### Reads past the end -/

/-- Every read or skip is `decodeBytes` with its own result. -/
theorem exec_decoderTake {i : Instr} {n : Nat} (h : i.kind = .decoderTake n) (s : State) :
    ∃ result : List Byte → Payload, exec i s = respond (decodeBytes n s result) := by
  cases i with
  | dU8 | dI8 | dU16 | dI16 | dF16 | dU32 | dI32 | dF32 | dU64 | dI64 | dF64 | dBits | dStr | dSkip =>
    cases h
    exact ⟨_, rfl⟩
  | _ => exact nomatch h

theorem decodeBytes_outside {n : Nat} {s : State} (result : List Byte → Payload) (h : s.dec.state = .ready)
    (hd : s.din = .none) (hn : s.dec.buf.length < s.dec.cur + n) :
    decodeBytes n s result = .err s.abortDecoder .truncatedBuffer := by
  rw [decodeBytes, decoderReady_ready h hd, takeBytes, memRead_outside hn]

/-- Settles O24: the read is `decodeBytes`, which `decodeBytes_outside` answers. -/
theorem readPastTheEndRaisesTruncatedBuffer : Obligations.ReadPastTheEndRaisesTruncatedBuffer := by
  intro i n s hkind hready hd hn
  obtain ⟨result, hexec⟩ := exec_decoderTake hkind s
  rw [hexec, decodeBytes_outside result hready hd hn]
  rfl

/-! ### The priority order -/

/-- The command reads past the end of the decoder buffer (R147), written as R190 orders it. -/
def ReadsPastTheEnd (i : Instr) (s : State) : Prop :=
  i.kind.needsDecoder = true ∧ i ≠ .dReset ∧ s.dec.buf.length < s.dec.cur + i.kind.taken

theorem operandForm_of_needsDecoder {i : Instr} (h : i.kind.needsDecoder = true) : i.operandForm = .nothing := by
  cases i with
  | dU8 | dI8 | dU16 | dI16 | dF16 | dU32 | dI32 | dF32 | dU64 | dI64 | dF64 | dBits | dStr | dSkip | dReset => rfl
  | _ => exact nomatch h

theorem readsPastTheEnd_iff {i : Instr} {s : State} :
    ReadsPastTheEnd i s ↔ ∃ n, i.kind = .decoderTake n ∧ s.dec.buf.length < s.dec.cur + n := by
  unfold ReadsPastTheEnd
  rw [Ne, ← kind_eq_decoderRewind]
  cases i.kind with
  | decoderTake n => simp [CommandKind.needsDecoder, CommandKind.taken]
  | _ => simp [CommandKind.needsDecoder]

/-- STATUS is OK, or CapacityExceeded for a command that stores bytes under a finite capacity (R57, R186). -/
def OkOrOverfull (k : CommandKind) (cfg : Config) (code : StatusCode) : Prop :=
  code = 0 ∨ (code = 6 ∧
    ((cfg.encCap ≠ none ∧ (k = .encoderConstruct ∨ k = .encoderAdd)) ∨ (cfg.decCap ≠ none ∧ k = .decoderConstruct)))

theorem ne_none_of_fitsCapacity_eq_false {cap : Option Nat} {n : Nat} (h : fitsCapacity cap n = false) : cap ≠ none := by
  obtain ⟨c, rfl, -⟩ := fitsCapacity_false h
  exact nofun

/-- The capacity is checked last: it is what is left when no other error applies. -/
theorem Effect.okOrOverfull {s : State} {k : CommandKind} {r : Reply} (h : Effect s k r) (hready : ChannelReady k s)
    (hform : r.state.status ≠ 1) (hroom : ∀ n, k = .decoderTake n → ¬s.dec.buf.length < s.dec.cur + n) :
    OkOrOverfull k s.cfg r.state.status := by
  cases h with
  | seedTooLong _ _ hf => exact .inr ⟨rfl, .inl ⟨ne_none_of_fitsCapacity_eq_false hf, .inl rfl⟩⟩
  | chunkTooLong _ _ hf => exact .inr ⟨rfl, .inl ⟨ne_none_of_fitsCapacity_eq_false hf, .inr rfl⟩⟩
  | bufferTooLong _ hf => exact .inr ⟨rfl, .inr ⟨ne_none_of_fitsCapacity_eq_false hf, rfl⟩⟩
  | truncated n _ _ hn => exact absurd hn (hroom n rfl)
  | loadRejected | rejected => exact absurd rfl hform
  | noEncoder _ hk hs => exact absurd (.inl ⟨hk, hs⟩) hready.not_unconstructed
  | noDecoder _ hk hs => exact absurd (.inr ⟨hk, hs⟩) hready.not_unconstructed
  | aborted _ hk hs => exact absurd ⟨hk, hs⟩ hready.not_sessionLost
  | _ => exact .inl rfl

theorem exec_readsPastTheEnd_status {i : Instr} {s : State} {r : Reply} (hexec : exec i s = respond r)
    (hready : ChannelReady i.kind s) (hform : s.din.hasForm i.operandForm = true) (hpast : ReadsPastTheEnd i s) :
    r.state.status = 2 := by
  have hneeds : i.kind.needsDecoder = true := hpast.1
  obtain ⟨n, hkind, hn⟩ := readsPastTheEnd_iff.mp hpast
  have hd : s.din = .none := Payload.eq_none_of_hasForm (operandForm_of_needsDecoder hneeds ▸ hform)
  have htruncated := readPastTheEndRaisesTruncatedBuffer i n s hkind (hready.dec hneeds) hd hn
  rw [← respond_eq_next.mp (hexec.symm.trans htruncated)]

/-- Settles O22: the reply to the command, with the lemma on each check in turn. -/
theorem firstErrorInPriorityOrderIsReported : Obligations.FirstErrorInPriorityOrderIsReported := by
  refine ⟨fun w s e hdecode => ⟨_, perform_illegal hdecode s, rfl⟩, fun i s => ?_⟩
  obtain ⟨r, hexec, heffect⟩ := exec_effect i s
  refine ⟨r.state, hexec, ?_⟩
  rcases heffect.channel_cases with hready | ⟨hnone, rfl⟩ | ⟨hlost, rfl⟩
  · rw [if_neg hready.not_unconstructed, if_neg hready.not_sessionLost]
    have hone := exec_status_eq_one_iff hready hexec
    split_ifs with hform hpast
    · exact hone.mpr hform
    · exact exec_readsPastTheEnd_status hexec hready (Bool.not_eq_false _ ▸ hform) hpast
    · exact heffect.okOrOverfull hready (mt hone.mp hform) fun n hk hn => hpast (readsPastTheEnd_iff.mpr ⟨n, hk, hn⟩)
  · rw [if_pos hnone]
    rfl
  · rw [if_neg hlost.not_unconstructed, if_pos hlost]
    rfl

/-! ### Groups of blocks -/

theorem exists_step_eq_next (s : State) : ∃ t, step s = .next t := by
  rcases step_cases s with ⟨-, hidle⟩ | ⟨t, rest, hp, -⟩
  · exact ⟨s, hidle⟩
  · obtain ⟨r, hstep, -⟩ := step_reply hp
    exact ⟨r.state, hstep⟩

/-- The state that a step gives; `step_eq_next_stepped` says that there always is one. -/
def stepped (s : State) : State :=
  match step s with
  | .next t => t
  | .fault _ | .refused _ => s

theorem step_eq_next_stepped (s : State) : step s = .next (stepped s) := by
  obtain ⟨t, hstep⟩ := exists_step_eq_next s
  rw [stepped, hstep]

/-- A step of a group is one block's step at its place. -/
theorem stepGroup_eq_modify (k : Nat) (g : List State) : stepGroup k g = .next (g.modify k stepped) := by
  unfold stepGroup
  cases hs : g[k]? with
  | none => rw [List.modify_eq_self (List.getElem?_eq_none_iff.mp hs)]
  | some s => simp [List.modify_eq_set_getElem?, hs, step_eq_next_stepped]

/-- Settles O59: by `stepGroup_eq_modify` both orders modify the two places, which are different. -/
theorem separateInstancesCommute : Obligations.SeparateInstancesCommute := by
  intro j k g hjk
  refine ⟨g.modify j stepped, g.modify k stepped, (g.modify j stepped).modify k stepped, stepGroup_eq_modify j g,
    stepGroup_eq_modify k _, stepGroup_eq_modify k g, ?_,
    fun l hl => List.getElem?_modify_ne _ _ hl.symm, fun l hl => List.getElem?_modify_ne _ _ hl.symm⟩
  rw [stepGroup_eq_modify, List.modify_modify_ne _ _ _ hjk]

end Sys2Proof.Machine
end

section
/-! The remaining laws: the transform is its own inverse (the spec's 41_word_order.md, R99), the host's signed view (R11), and
the step without a command (R20, R211). -/

namespace Sys2Proof.Machine

/-! ### The involution -/

/-- The spec's inverse transform is the forward transform under the same orders (R99). -/
theorem xinv_eq_xform (w : Width) (bo wo : Endian) (x : List Byte) : xinv w bo wo x = xform w bo wo x := rfl

/-- Settles O46: `xform_xform` undoes both steps of the transform, which `orderUnits_orderBytes` lets change places. -/
theorem transformIsItsOwnInverse : Obligations.TransformIsItsOwnInverse :=
  ⟨fun w bo wo x hx => ⟨xinv_eq_xform w bo wo x, xform_xform w bo wo hx⟩, orderUnits_orderBytes⟩

/-! ### The host's signed view -/

/-- The spec's case split on the top bit is the library's two's-complement reading. -/
theorem signedView_eq_toInt {n : Nat} (p : BitVec n) : signedView p = p.toInt := by
  rw [signedView, BitVec.toInt_eq_msb_cond, Int.natCast_pow, Int.cast_ofNat_Int]

/-- The spec's `x mod 2^W` is the library's two's-complement pattern. -/
theorem signedPattern_eq_ofInt (n : Nat) (x : Int) : signedPattern n x = BitVec.ofInt n x := by
  have hnat : (BitVec.ofInt n x).toNat = (x % 2 ^ n).toNat := by
    rw [BitVec.toNat_ofInt, Int.natCast_pow, Int.cast_ofNat_Int]
  rw [signedPattern, ← hnat, BitVec.ofNat_toNat, BitVec.setWidth_eq]

/-- Settles O54: both functions are the library's, and the bounds are those between which `BitVec.ofInt` keeps a number. -/
theorem signedViewAndPatternAreInverse : Obligations.SignedViewAndPatternAreInverse := by
  refine ⟨fun n x hn hlow hhigh => ?_, fun n p => ?_⟩
  · rw [signedView_eq_toInt, signedPattern_eq_ofInt, BitVec.toInt_ofInt_eq_self hn hlow hhigh]
  · rw [signedView_eq_toInt, signedPattern_eq_ofInt, BitVec.ofInt_toInt]

/-! ### The idle step -/

/-- Settles O8: without a pending transaction there is no next command to perform. -/
theorem blockWaitsWhileNoCommandIsPending : Obligations.BlockWaitsWhileNoCommandIsPending := by
  intro s hidle
  rw [step, State.nextCommand_nil hidle]

end Sys2Proof.Machine
end
